-- ==== Sys2Proof/Word.lean ====
section
/-!
DEFINITION. The byte (00_scope.md R16) and the byte sequence. The hardware has no other word: RXOFF and the numbers of the
frame fields are natural numbers whose widths the configuration gives (10_state.md R24, 30_encoding.md R64).
-/

namespace Sys2Proof

/-- A byte is 8 bits; bit `k` has weight `2^k` (00_scope.md R16). -/
abbrev Byte := BitVec 8

/-- A byte sequence; element 0 is the byte that is first on the wire (20_memory.md R41). -/
abbrev Bytes := List Byte

end Sys2Proof
end

