-- ==== Sys2Proof/Config.lean ====
section
/-!
DEFINITION. The configuration record `cfg` (00_scope.md R5 to R13, 10_state.md R27) as plain data, the values the spec leaves
open (opaque constants with no body), the named check functions of 30_encoding.md R80 and the reference configurations of
00_scope.md R15. Which configurations are legal (R14) is in WellFormed.lean; what a check function computes is in
Machine/Check.lean.
-/

namespace Sys2Proof

/-- `cfg.ENDIAN`: one byte order for every multi-byte numeric field (00_scope.md R7, 20_memory.md R42). -/
inductive Endian where
  | little
  | big
deriving DecidableEq, Repr

/-- The parameters of one member of the CRC family (30_encoding.md R80). `poly` is written without its top term; `poly`,
`init` and `xorout` are `width`-bit numbers. -/
structure CrcParams where
  width  : Nat
  poly   : Nat
  init   : Nat
  refin  : Bool
  refout : Bool
  xorout : Nat
deriving DecidableEq, Repr

/-- `cfg.CHECK` named by plain data (00_scope.md R11): a member of one of the three families the spec defines
(30_encoding.md R80 to R82), or the vendor's own function number `id`, of which nothing but R14(d) and (e) may be assumed
(93_implementation_defined.md U2; log 3). -/
inductive CheckAlg where
  | crc (p : CrcParams)
  | sum (complement : Bool)
  | xor8
  | vendor (id : Nat)
deriving DecidableEq, Repr

/-- The configuration record: the control registers of the block (10_state.md R27). No operation writes them. -/
structure Config where
  /-- SOF, the start marker (R5). -/
  sof     : Bytes
  /-- LW, the width of the length field in bytes (R6). -/
  lw      : Nat
  /-- ENDIAN (R7). -/
  endian  : Endian
  /-- LEN_ADJ, a mathematical integer added to the body length (R8). -/
  lenAdj  : Int
  /-- OPW, the width of the opcode in bytes (R9). -/
  opw     : Nat
  /-- MAX_BODY, the largest body length (R10). -/
  maxBody : Nat
  /-- CW, the width of the check field in bytes (R11). -/
  cw      : Nat
  /-- CHECK (R11). -/
  check   : CheckAlg
  /-- ESC_EN (R12). When false the next three fields are ignored. -/
  escEn   : Bool
  /-- ESC, the escape byte (R12, 30_encoding.md R86). -/
  esc     : Byte
  /-- ESC_XOR, the mask (R12, 30_encoding.md R86). -/
  escXor  : Byte
  /-- ESC_SET, the byte values that must be escaped; only membership is ever read (R12, 30_encoding.md R86). -/
  escSet  : List Byte
  /-- RXCAP, the capacity of RXBUF; `none` is the spec's `unbounded` (R13). -/
  rxcap   : Option Nat
  /-- OFFW, the width of RXOFF in bits (R13). -/
  offw    : Nat
deriving DecidableEq, Repr

/-- DESIGN CHOICE (log 3). The vendor's check functions, by number: uninterpreted, so that nothing but what is assumed of a
configuration can be proved of them. Safe. -/
opaque Config.vendorCheck : Nat → Bytes → Nat

/-- `INTERBYTE_TIMEOUT`, the open duration owned by the timer agent (92_eei_decisions.md D19, 93_implementation_defined.md
U7): no rule reads it, and nothing in this model does (log 14). -/
opaque Config.interbyteTimeout : Nat

/-! ### The named CRC instances (30_encoding.md R80) -/

/-- CRC-16/CCITT-FALSE, the check of CFG_REF. -/
def crc16CcittFalse : CrcParams := ⟨16, 0x1021, 0xFFFF, false, false, 0x0000⟩
/-- CRC-16/XMODEM. -/
def crc16Xmodem : CrcParams := ⟨16, 0x1021, 0x0000, false, false, 0x0000⟩
/-- CRC-16/KERMIT. -/
def crc16Kermit : CrcParams := ⟨16, 0x1021, 0x0000, true, true, 0x0000⟩
/-- CRC-16/ARC. -/
def crc16Arc : CrcParams := ⟨16, 0x8005, 0x0000, true, true, 0x0000⟩
/-- CRC-8. -/
def crc8 : CrcParams := ⟨8, 0x07, 0x00, false, false, 0x00⟩
/-- CRC-32. -/
def crc32 : CrcParams := ⟨32, 0x04C11DB7, 0xFFFFFFFF, true, true, 0xFFFFFFFF⟩

/-! ### The reference configurations (00_scope.md R15). They are the spec's own, not the real device's (log 2). -/

/-- CFG_REF (00_scope.md R15; the "reference (reset)" column of 10_state.md R27). ESC, ESC_XOR and ESC_SET are "unused" there:
DESIGN CHOICE zero and empty (log 2). -/
def cfgRef : Config :=
  { sof := [0xAA, 0x55], lw := 2, endian := .little, lenAdj := 0, opw := 1, maxBody := 1024, cw := 2,
    check := .crc crc16CcittFalse, escEn := false, esc := 0, escXor := 0, escSet := [], rxcap := none, offw := 64 }

/-- CFG_BE: CFG_REF with the other byte order (00_scope.md R15). -/
def cfgBe : Config := { cfgRef with endian := .big }

/-- CFG_SUM8 (00_scope.md R15). -/
def cfgSum8 : Config :=
  { sof := [0x5A], lw := 1, endian := .little, lenAdj := 0, opw := 1, maxBody := 255, cw := 1,
    check := .sum false, escEn := false, esc := 0, escXor := 0, escSet := [], rxcap := none, offw := 64 }

/-- CFG_ESC (00_scope.md R15). -/
def cfgEsc : Config :=
  { sof := [0x7E], lw := 1, endian := .little, lenAdj := 0, opw := 1, maxBody := 255, cw := 1,
    check := .sum false, escEn := true, esc := 0x7D, escXor := 0x20, escSet := [0x7E, 0x7D], rxcap := none, offw := 64 }

end Sys2Proof
end

