-- ==== Sys2Proof/Machine/Check.lean ====
section
/-!
DEFINITION. The check functions (30_encoding.md R80 to R82) and `cfg.CHECK` (00_scope.md R11). The three families are marked
in the spec as taken from general knowledge (G1 to G3); this model takes them as the spec states them (log 13).
-/

namespace Sys2Proof

/-- One step of the CRC register: shift left by one and, if the top bit was 1, exclusive-or with `poly` (30_encoding.md R80).
-/
def crcShift {w : Nat} (poly reg : BitVec w) : BitVec w :=
  if reg.msb then (reg <<< 1) ^^^ poly else reg <<< 1

/-- `k` steps of the CRC register (30_encoding.md R80 takes 8 for each byte). -/
def crcShifts {w : Nat} (poly : BitVec w) : Nat → BitVec w → BitVec w
  | 0, reg => reg
  | k + 1, reg => crcShifts poly k (crcShift poly reg)

/-- One byte into the CRC register: reflected first when `refin`, entered at the top, then eight steps (30_encoding.md R80).
-/
def crcByte {w : Nat} (poly : BitVec w) (refin : Bool) (reg : BitVec w) (b : Byte) : BitVec w :=
  crcShifts poly 8 (reg ^^^ ((if refin then b.reverse else b).setWidth w <<< (w - 8)))

/-- The CRC register after all bytes, in order (30_encoding.md R80). -/
def crcBytes {w : Nat} (poly : BitVec w) (refin : Bool) : BitVec w → Bytes → BitVec w
  | reg, [] => reg
  | reg, b :: bs => crcBytes poly refin (crcByte poly refin reg b) bs

/-- `CRC(width, poly, init, refin, refout, xorout)` (30_encoding.md R80). -/
def crcCheck (p : CrcParams) (data : Bytes) : Nat :=
  let reg := crcBytes (BitVec.ofNat p.width p.poly) p.refin (BitVec.ofNat p.width p.init) data
  ((if p.refout then reg.reverse else reg) ^^^ BitVec.ofNat p.width p.xorout).toNat

/-- The sum of the bytes as natural numbers. -/
def byteSum : Bytes → Nat
  | [] => 0
  | b :: bs => b.toNat + byteSum bs

/-- `SUM(CW, complement)`: the sum modulo `2^(8*CW)`, or its two's complement (30_encoding.md R81). -/
def sumCheck (cw : Nat) (complement : Bool) (data : Bytes) : Nat :=
  let s := byteSum data % 2 ^ (8 * cw)
  if complement then (2 ^ (8 * cw) - s) % 2 ^ (8 * cw) else s

/-- The bitwise exclusive-or of all bytes. -/
def byteXor : Bytes → Byte
  | [] => 0
  | b :: bs => b ^^^ byteXor bs

/-- `XOR8` (30_encoding.md R82). -/
def xor8Check (data : Bytes) : Nat := (byteXor data).toNat

/-- `cfg.CHECK`, total and deterministic (00_scope.md R11, R14(d)). A vendor function is cut to the range R14(d) gives it
(log 3). -/
def checkFn (c : Config) (data : Bytes) : Nat :=
  match c.check with
  | .crc p => crcCheck p data
  | .sum complement => sumCheck c.cw complement data
  | .xor8 => xor8Check data
  | .vendor id => Config.vendorCheck id data % 2 ^ (8 * c.cw)

end Sys2Proof
end

