-- ==== Sys2Proof/Syntax.lean ====
section
/-!
DEFINITION. The syntax, whole: one constructor of `Instr` per row of spec/opcode_table.json, the inputs an environment
presents, the Frame record (10_state.md R25), and the closed sets of outcomes, events and results the operations return
(60_exceptions.md R161, 42_observe.md R142).
-/

namespace Sys2Proof

/-- The operations of the block (30_encoding.md R93), the two reserved select codes (R94(a)) and the two wire patterns of the
opcode table (R60, R87; log 8). -/
inductive Instr where
  /-- ENCODE opcode payload (40_encode.md R100). The opcode is a natural number of any size. -/
  | encode (opcode : Nat) (payload : Bytes)
  /-- PUSH bytes (41_decode.md R110). -/
  | push (bytes : Bytes)
  /-- DECODE (41_decode.md R111). -/
  | decode
  /-- OBSERVE (42_observe.md R140). -/
  | observe
  /-- TIMEOUT (43_system.md R150). -/
  | timeout
  /-- RESET (43_system.md R152). -/
  | reset
  /-- Select code 6, reserved (30_encoding.md R94(a)). -/
  | reserved6
  /-- Select code 7, reserved (30_encoding.md R94(a)). -/
  | reserved7
  /-- FRAME: one whole frame on the receive line (30_encoding.md R60). SOF, LEN and CHK are functions of these two fields. -/
  | frame (opcode : Nat) (msg : Bytes)
  /-- ESC_PAIR: the two bytes ESC, X on the receive line (30_encoding.md R87, R88). ESC is a constant of the configuration. -/
  | escPair (x : Byte)
deriving DecidableEq, Repr

/-- What the environment can present to the block (log 5, log 7): a command with its 3-bit select code and its two operand
ports, or bytes on the receive line. The spec gives the select code (30_encoding.md R93, D24) and no other encoding. -/
inductive Input where
  | command (select : BitVec 3) (opcode : Nat) (data : Bytes)
  | line (bytes : Bytes)
deriving DecidableEq, Repr

/-- Why an input decodes to no instruction. -/
inductive DecodeError where
  /-- An operand was presented to an operation that has none (30_encoding.md R93; log 7). -/
  | strayOperand
deriving DecidableEq, Repr

/-- The three agents that act on an instance (20_memory.md R50). -/
inductive Agent where
  | client
  | receiveSource
  | timer
deriving DecidableEq, Repr

/-- The agent whose step an instruction is (20_memory.md R50, 70_reset_and_hazards.md R204). The wire patterns are the receive
source's, as PUSHes of their bytes (log 8). DESIGN CHOICE (log 18): the reserved select codes 6 and 7, which name no operation
(30_encoding.md R94(a)) and which R50 and R204 give to no agent, stand with the client, the agent most select codes belong to; they
are refused whoever presents them. -/
def Instr.agent : Instr → Agent
  | .encode _ _ => .client
  | .push _ => .receiveSource
  | .decode => .client
  | .observe => .client
  | .timeout => .timer
  | .reset => .client
  | .reserved6 => .client
  | .reserved7 => .client
  | .frame _ _ => .receiveSource
  | .escPair _ => .receiveSource

/-- The Frame record (10_state.md R25): a value handed to the client, not state. -/
structure Frame where
  /-- Always `cfg.SOF`. -/
  sof      : Bytes
  /-- The number carried in the length field as read from the wire. -/
  length   : Nat
  /-- The body: opcode bytes followed by the message payload, after unescaping (30_encoding.md R61). -/
  payload  : Bytes
  /-- The number carried in the check field as read from the wire. -/
  checksum : Nat
deriving DecidableEq, Repr

/-- The reasons of InvalidFrame, the class DOC0 also calls FrameError (60_exceptions.md R161, R162). -/
inductive InvalidReason where
  | badLength
  | badChecksum
  | noMarker
  | badEscape
  | stalled
deriving DecidableEq, Repr

/-- The verdict of one DECODE (41_decode.md R111, R113). -/
inductive Verdict where
  | frame (f : Frame)
  | needMoreBytes
  | invalid (reason : InvalidReason)
deriving DecidableEq, Repr

/-- What TIMEOUT returns (43_system.md R150). -/
inductive TimeoutVerdict where
  | noAction
  | invalid (reason : InvalidReason)
deriving DecidableEq, Repr

/-- Why ENCODE returns no bytes (40_encode.md R102, R103). -/
inductive EncodeRefusal where
  | opcodeRange
  | bodyTooLong
deriving DecidableEq, Repr

/-- What ENCODE returns (40_encode.md R100). -/
inductive EncodeResult where
  | bytes (wire : Bytes)
  | refused (reason : EncodeRefusal)
deriving DecidableEq, Repr

/-- The events of OBSERVE (42_observe.md R142). -/
inductive Event where
  | frameEvent (offset : Nat) (frame : Frame) (wire : Bytes)
  | rawSegment (offset : Nat) (bytes : Bytes) (reason : InvalidReason)
deriving DecidableEq, Repr

/-- A value an operation returns to its client (60_exceptions.md R160, R161). PUSH and RESET return nothing. -/
inductive Result where
  | encoded (r : EncodeResult)
  | decoded (v : Verdict) (consumed : Nat) (raw : Bytes)
  | observed (events : List Event)
  | timedOut (v : TimeoutVerdict) (consumed : Nat) (raw : Bytes)
deriving DecidableEq, Repr

/-- The three answers of `take` (30_encoding.md R88). -/
inductive Take where
  | ok (logical : Bytes) (next : Nat)
  | more
  | bad
deriving DecidableEq, Repr

/-- The derived decoder phases (10_state.md R29). -/
inductive Phase where
  | idle
  | hunt
  | mark
  | len
  | body
  | check
  | ready
deriving DecidableEq, Repr

end Sys2Proof
end

