-- ==== Sys2Proof/Machine/Escape.lean ====
section
/-!
DEFINITION. The escape layer: `escape` (30_encoding.md R87) and `take` (R88), with escaping off the identity and plain slicing
(R92).
-/

namespace Sys2Proof

/-- The wire bytes of one logical byte of the escaped region (30_encoding.md R87). -/
def escapeByte (c : Config) (b : Byte) : Bytes :=
  if b ∈ c.escSet then [c.esc, b ^^^ c.escXor] else [b]

/-- `escape(cfg, logical)` with escaping on (30_encoding.md R87). -/
def escapeAll (c : Config) : Bytes → Bytes
  | [] => []
  | b :: bs => escapeByte c b ++ escapeAll c bs

/-- `escape(cfg, logical)`: the identity when ESC_EN is false (30_encoding.md R87, R92). -/
def escape (c : Config) (logical : Bytes) : Bytes :=
  if c.escEn then escapeAll c logical else logical

/-- Puts one logical byte, `n` wire bytes long, before an answer of `take`. -/
def Take.cons (v : Byte) (n : Nat) : Take → Take
  | .ok out j => .ok (v :: out) (n + j)
  | .more => .more
  | .bad => .bad

/-- The loop of `take` with escaping on, over the bytes from the current index on: `k` logical bytes and the number of wire
bytes they took. The bytes are examined left to right and the first `more` or `bad` met decides (30_encoding.md R88). -/
def unescape (c : Config) : Nat → Bytes → Take
  | 0, _ => .ok [] 0
  | _ + 1, [] => .more
  | k + 1, b :: rest =>
    if b = c.esc then
      match rest with
      | [] => .more
      | x :: rest' =>
        if x ^^^ c.escXor ∈ c.escSet then (unescape c k rest').cons (x ^^^ c.escXor) 2 else .bad
    else if b ∈ c.escSet then .bad
    else (unescape c k rest).cons b 1

/-- `take(cfg, buf, i, k)` (30_encoding.md R88, R92): `k` logical bytes from wire index `i`, and the wire index after them. -/
def take (c : Config) (buf : Bytes) (i k : Nat) : Take :=
  if c.escEn then
    match unescape c k (buf.drop i) with
    | .ok out n => .ok out (i + n)
    | .more => .more
    | .bad => .bad
  else if i + k > buf.length then .more
  else .ok ((buf.drop i).take k) (i + k)

end Sys2Proof
end

