-- ==== Sys2Proof/Machine/Operands.lean ====
section
/-!
DEFINITION. Field assembly (30_encoding.md R64): numbers to bytes and back, the length field (R63, R70), and the two accessors
of a Frame (10_state.md R25). These are the operand forms of this hardware: there are no registers and no addressing modes.
-/

namespace Sys2Proof

/-- The low `w` bytes of `v`, least significant first: element `i` is bits `8i+7 .. 8i` of `v` (30_encoding.md R64). -/
def leBytes (v : Nat) : Nat → Bytes
  | 0 => []
  | w + 1 => BitVec.ofNat 8 v :: leBytes (v / 256) w

/-- `num_to_bytes(v, w, endian)` (30_encoding.md R64): undefined (`none`) for `v >= 2^(8w)`, never a truncation. -/
def numToBytes (v w : Nat) (e : Endian) : Option Bytes :=
  if v < 2 ^ (8 * w) then
    match e with
    | .little => some (leBytes v w)
    | .big => some (leBytes v w).reverse
  else none

/-- `bytes_to_num(b, little)`: the sum of `b[i] * 256^i` (30_encoding.md R64). -/
def leNum : Bytes → Nat
  | [] => 0
  | b :: bs => b.toNat + 256 * leNum bs

/-- `bytes_to_num(b, endian)` (30_encoding.md R64). -/
def bytesToNum (b : Bytes) (e : Endian) : Nat :=
  match e with
  | .little => leNum b
  | .big => leNum b.reverse

/-- The length field of a body of `n` bytes: `num_to_bytes(n + LEN_ADJ, LW, ENDIAN)` (30_encoding.md R60, R63). Undefined
where the number is negative or too wide, which no well-formed configuration reaches (00_scope.md R14(c)). -/
def lengthField (c : Config) (n : Nat) : Option Bytes :=
  let v : Int := n + c.lenAdj
  if v < 0 then none else numToBytes v.toNat c.lw c.endian

/-- `opcode(f)` (10_state.md R25). -/
def frameOpcode (c : Config) (f : Frame) : Nat := bytesToNum (f.payload.take c.opw) c.endian

/-- `msg_payload(f)` (10_state.md R25). -/
def frameMsg (c : Config) (f : Frame) : Bytes := f.payload.drop c.opw

end Sys2Proof
end

