-- ==== Sys2Proof/Machine/Wire.lean ====
section
/-!
DEFINITION. The pure core every operation is built on: the encode function (40_encode.md R100), `next_marker` (41_decode.md
R112), `decode_fn` (41_decode.md R113) and the OBSERVE loop (42_observe.md R140).
-/

namespace Sys2Proof

/-- ENCODE's function of `(cfg, opcode, payload)` (40_encode.md R100 to R103). `none` only where `num_to_bytes` is undefined,
which R14(c) and (d) exclude (log 9). -/
def encodeFn (c : Config) (opcode : Nat) (payload : Bytes) : Option EncodeResult :=
  if opcode ≥ 2 ^ (8 * c.opw) then some (.refused .opcodeRange)
  else if c.opw + payload.length > c.maxBody then some (.refused .bodyTooLong)
  else
    match numToBytes opcode c.opw c.endian, lengthField c (c.opw + payload.length) with
    | some opc, some lenBytes =>
      match numToBytes (checkFn c (lenBytes ++ (opc ++ payload))) c.cw c.endian with
      | some checkBytes => some (.bytes (c.sof ++ escape c (lenBytes ++ (opc ++ payload) ++ checkBytes)))
      | none => none
    | _, _ => none

/-- Two sequences agree as far as the shorter one goes. -/
def agrees : Bytes → Bytes → Bool
  | [], _ => true
  | _, [] => true
  | a :: as, b :: bs => a == b && agrees as bs

/-- The number of bytes before the first plausible marker position of `l`; its length if there is none (41_decode.md R112). -/
def markerScan (sof : Bytes) : Bytes → Nat
  | [] => 0
  | b :: bs => if agrees sof (b :: bs) then 0 else markerScan sof bs + 1

/-- `next_marker(cfg, buf, from)` (41_decode.md R112): the first plausible start-marker position at or after `start`, the
buffer's length if there is none. -/
def nextMarker (c : Config) (buf : Bytes) (start : Nat) : Nat :=
  if start < buf.length then start + markerScan c.sof (buf.drop start) else buf.length

/-- `decode_fn(cfg, buf)`: the pure decoding function, its steps in the order of 41_decode.md R113 (60_exceptions.md R166). -/
def decodeFn (c : Config) (buf : Bytes) : Verdict × Nat :=
  if buf.length = 0 then (.needMoreBytes, 0)
  else if nextMarker c buf 0 > 0 then (.invalid .noMarker, nextMarker c buf 0)
  else if buf.length < c.sof.length then (.needMoreBytes, 0)
  else
    match take c buf c.sof.length c.lw with
    | .more => (.needMoreBytes, 0)
    | .bad => (.invalid .badEscape, nextMarker c buf 1)
    | .ok lenBytes i1 =>
      let lval := bytesToNum lenBytes c.endian
      let b : Int := lval - c.lenAdj
      if b < c.opw ∨ b > c.maxBody then (.invalid .badLength, nextMarker c buf 1)
      else
        match take c buf i1 (b.toNat + c.cw) with
        | .more => (.needMoreBytes, 0)
        | .bad => (.invalid .badEscape, nextMarker c buf 1)
        | .ok rest i2 =>
          let body := rest.take b.toNat
          let chk := bytesToNum (rest.drop b.toNat) c.endian
          if chk ≠ checkFn c (lenBytes ++ body) then (.invalid .badChecksum, nextMarker c buf 1)
          else (.frame { sof := c.sof, length := lval, payload := body, checksum := chk }, i2)

/-- The stream offset after `n` more bytes have been consumed (10_state.md R24). -/
def advanceOffset (c : Config) (off n : Nat) : Nat := (off + n) % 2 ^ c.offw

/-- The event one verdict of `decode_fn` becomes (42_observe.md R140, R142); none for NeedMoreBytes. -/
def eventOf (off : Nat) (raw : Bytes) : Verdict → Option Event
  | .frame f => some (.frameEvent off f raw)
  | .invalid reason => some (.rawSegment off raw reason)
  | .needMoreBytes => none

/-- The loop of OBSERVE (42_observe.md R140) from a buffer and its offset: the events, and the buffer and offset it leaves.
`fuel` bounds the iterations: `none` if they run out, which a well-formed configuration excludes (41_decode.md R118; log 9).
-/
def observeLoop (c : Config) : Nat → Bytes → Nat → Option (List Event × Bytes × Nat)
  | 0, _, _ => none
  | fuel + 1, buf, off =>
    let n := (decodeFn c buf).2
    match eventOf off (buf.take n) (decodeFn c buf).1 with
    | none => some ([], buf, off)
    | some e =>
      match observeLoop c fuel (buf.drop n) (advanceOffset c off n) with
      | some (es, buf', off') => some (e :: es, buf', off')
      | none => none

/-- OBSERVE's function of the buffer and its offset: as many iterations as there are bytes, and one (42_observe.md R140). -/
def observeFn (c : Config) (buf : Bytes) (off : Nat) : Option (List Event × Bytes × Nat) :=
  observeLoop c (buf.length + 1) buf off

end Sys2Proof
end

