-- ==== Sys2Proof/WellFormed.lean ====
section
/-!
DEFINITION. Which configurations are legal (00_scope.md R14, 10_state.md R27) and which instructions are well formed. R14(e)
quantifies over all byte sequences, so it is a Prop of its own (`Config.PSens`); everything else of R14 is the Bool `Config.wf`.
-/

namespace Sys2Proof

/-- R14(a): `S >= 1`, `1 <= LW <= 4`, `1 <= OPW <= 4`, `CW >= 1`. -/
def Config.wfWidths (c : Config) : Bool :=
  1 ≤ c.sof.length && 1 ≤ c.lw && c.lw ≤ 4 && 1 ≤ c.opw && c.opw ≤ 4 && 1 ≤ c.cw

/-- R14(b): `OPW <= MAX_BODY`. -/
def Config.wfBody (c : Config) : Bool := c.opw ≤ c.maxBody

/-- R14(c): every legal body length has a representable length-field value. -/
def Config.wfLength (c : Config) : Bool :=
  decide (0 ≤ (c.opw : Int) + c.lenAdj) && decide ((c.maxBody : Int) + c.lenAdj ≤ 2 ^ (8 * c.lw) - 1)

/-- R14(d): the result is below `2^(8*CW)`. For a CRC that is `width = 8*CW` with parameters of `width` bits (30_encoding.md
R80); XOR8 has `CW = 1` (R82). -/
def Config.wfCheck (c : Config) : Bool :=
  match c.check with
  | .crc p => p.width == 8 * c.cw && decide (p.poly < 2 ^ p.width) && decide (p.init < 2 ^ p.width) &&
      decide (p.xorout < 2 ^ p.width)
  | .sum _ => true
  | .xor8 => c.cw == 1
  | .vendor _ => true

/-- R14(f): if ESC_EN, `ESC` and every byte of `SOF` are in `ESC_SET`, `ESC_XOR` is not 0, and the mask maps no member of
`ESC_SET` to a member. -/
def Config.wfEscape (c : Config) : Bool :=
  !c.escEn || (decide (c.esc ∈ c.escSet) && c.sof.all (fun b => decide (b ∈ c.escSet)) && decide (c.escXor ≠ 0) &&
    c.escSet.all (fun b => decide (b ^^^ c.escXor ∉ c.escSet)))

/-- `MAXWIRE = S + k*(LW + MAX_BODY + CW)`, `k = 2` if ESC_EN else 1 (R14(g)). -/
def Config.maxWire (c : Config) : Nat :=
  c.sof.length + (if c.escEn then 2 else 1) * (c.lw + c.maxBody + c.cw)

/-- R14(g): a bounded RXCAP holds a whole maximal frame. -/
def Config.wfCap (c : Config) : Bool :=
  match c.rxcap with
  | none => true
  | some cap => decide (c.maxWire ≤ cap)

/-- The legal values of OFFW (10_state.md R27): at least 1. -/
def Config.wfOffset (c : Config) : Bool := 1 ≤ c.offw

/-- The clauses of R14 that one evaluates: all but (e). -/
def Config.wf (c : Config) : Bool :=
  c.wfWidths && c.wfBody && c.wfLength && c.wfCheck && c.wfEscape && c.wfCap && c.wfOffset

/-- Two sequences of equal length that differ in exactly one position. -/
def DifferInOneByte (x y : Bytes) : Prop :=
  ∃ pre post : Bytes, ∃ b b' : Byte, b ≠ b' ∧ x = pre ++ b :: post ∧ y = pre ++ b' :: post

/-- P_SENS, single-byte sensitivity of CHECK (30_encoding.md R85; R14(e)). -/
def Config.PSens (c : Config) : Prop := ∀ x y : Bytes, DifferInOneByte x y → checkFn c x ≠ checkFn c y

/-- A well-formed configuration (R14). An ill-formed one has no machine (U14): `State.instantiate` asks for this proof. -/
def Config.WellFormed (c : Config) : Prop := c.wf = true ∧ c.PSens

/-- The well-formed instructions under a configuration. The select codes 6 and 7 name no operation (30_encoding.md R94(a));
a FRAME exists iff its opcode fits OPW bytes and its body MAX_BODY (opcode table, row FRAME); an ESC_PAIR exists only with
escaping on (opcode table, row ESC_PAIR; 00_scope.md R12). ENCODE takes every operand: it answers the illegal ones with a
refusal that is a value (40_encode.md R102, R103). -/
def Instr.wf (c : Config) : Instr → Bool
  | .encode _ _ => true
  | .push _ => true
  | .decode => true
  | .observe => true
  | .timeout => true
  | .reset => true
  | .reserved6 => false
  | .reserved7 => false
  | .frame opcode msg => decide (opcode < 2 ^ (8 * c.opw)) && decide (c.opw + msg.length ≤ c.maxBody)
  | .escPair _ => c.escEn

end Sys2Proof
end

