-- ==== Sys2Proof/Decode.lean ====
section
/-!
DEFINITION. The decoder of inputs, and after it the encoder. A command carries the 3-bit select code of 30_encoding.md R93 and
its operands (log 7); bytes on the receive line are a FRAME (R60), an ESC_PAIR (R87) or neither, and what is neither is what
the receive line brings in any case, a PUSH (70_reset_and_hazards.md R204; log 8). Every line input decodes; a command is
refused by name where operands are presented to an operation that has none.
-/

namespace Sys2Proof

/-- An operation without operands, presented with its operand ports empty. -/
def decodeBare (i : Instr) (opcode : Nat) (data : Bytes) : Except DecodeError Instr :=
  if opcode = 0 ∧ data = [] then .ok i else .error .strayOperand

/-- The operation a select code names, with its operands (30_encoding.md R93, R94(a)). -/
def decodeCommand (select : BitVec 3) (opcode : Nat) (data : Bytes) : Except DecodeError Instr :=
  match select.toNat with
  | 0 => .ok (.encode opcode data)
  | 1 => if opcode = 0 then .ok (.push data) else .error .strayOperand
  | 2 => decodeBare .decode opcode data
  | 3 => decodeBare .observe opcode data
  | 4 => decodeBare .timeout opcode data
  | 5 => decodeBare .reset opcode data
  | 6 => decodeBare .reserved6 opcode data
  | _ => decodeBare .reserved7 opcode data

/-- The second byte of a byte sequence that is an escape pair under `c`: two bytes, the first ESC, with escaping on (opcode
table, row ESC_PAIR). -/
def escPairOf (c : Config) : Bytes → Option Byte
  | [e, x] => if c.escEn && e == c.esc then some x else none
  | _ => none

/-- The frame a byte sequence is, if it is exactly one valid frame and nothing else (30_encoding.md R60, R68). -/
def frameOf (c : Config) (bytes : Bytes) : Option Frame :=
  match decodeFn c bytes with
  | (.frame f, n) => if n = bytes.length then some f else none
  | _ => none

/-- What bytes on the receive line are: an escape pair, a frame, or bytes like any other. -/
def decodeLine (c : Config) (bytes : Bytes) : Instr :=
  match escPairOf c bytes with
  | some x => .escPair x
  | none =>
    match frameOf c bytes with
    | some f => .frame (frameOpcode c f) (frameMsg c f)
    | none => .push bytes

/-- The instruction an input presents, under the instance's configuration. -/
def decodeInstr (c : Config) : Input → Except DecodeError Instr
  | .command select opcode data => decodeCommand select opcode data
  | .line bytes => .ok (decodeLine c bytes)

/-! ### The encoder -/

/-- The wire bytes of the frame of an opcode and a message payload, where there is one (30_encoding.md R60). -/
def frameWire (c : Config) (opcode : Nat) (msg : Bytes) : Option Bytes :=
  match encodeFn c opcode msg with
  | some (.bytes w) => some w
  | _ => none

/-- The input that presents an instruction (30_encoding.md R93 for the commands, R60 and R87 for the wire patterns); `none` for
a wire pattern that does not exist under `c`. -/
def encodeInstr (c : Config) : Instr → Option Input
  | .encode opcode payload => some (.command 0 opcode payload)
  | .push bytes => some (.command 1 0 bytes)
  | .decode => some (.command 2 0 [])
  | .observe => some (.command 3 0 [])
  | .timeout => some (.command 4 0 [])
  | .reset => some (.command 5 0 [])
  | .reserved6 => some (.command 6 0 [])
  | .reserved7 => some (.command 7 0 [])
  | .frame opcode msg => (frameWire c opcode msg).map .line
  | .escPair x => if c.escEn then some (.line [c.esc, x]) else none

/-! ### The words of the opcode table -/

/-- The input whose bits are `w`, numbered as the opcode table numbers them. A row of the CMD format is a select code,
`bits[2:0]`, and its operands are zero: the opcode 0 and no bytes. A word of more than one byte is bytes of a WIRE row, the
first byte in bits 7..0 (log 7). -/
def tableInput (nbits w : Nat) : Input :=
  if nbits ≤ 8 then .command (BitVec.ofNat 3 w) 0 [] else .line (leBytes w (nbits / 8))

/-- The instruction the decoder reads from a word of the opcode table, under the reset configuration. -/
def decodeTableWord (nbits w : Nat) : Option Instr :=
  match decodeInstr cfgRef (tableInput nbits w) with
  | .ok i => some i
  | .error _ => none

end Sys2Proof
end

