-- ==== Sys2Proof/Machine/State.lean ====
section
/-!
DEFINITION. The state of one codec instance and its boundary, as plain data; the faults and refusals; the machine right after
reset.
-/

namespace Sys2Proof.Machine

/-- One codec instance. `rxbuf` and `rxoff` are the whole architectural state (10_state.md R20), `cfg` the control registers
(R27; log 1). The other three fields are the model's own and stand for the block's boundary: no operation reads `returned`,
only `step` reads `inputs`. -/
structure State where
  /-- The control registers (10_state.md R27). No operation writes them. -/
  cfg      : Config
  /-- RXBUF: the bytes received and not yet consumed, oldest first (10_state.md R23). -/
  rxbuf    : Bytes
  /-- RXOFF: the bytes removed from the front of RXBUF since the last RESET, modulo `2^OFFW` (10_state.md R24). -/
  rxoff    : Nat
  /-- The steps the environment has still to take, in the order it takes them (20_memory.md R50; log 5). -/
  inputs   : List Input
  /-- The PUSHes the receive source holds because they are not enabled, oldest first (20_memory.md R47; log 6). -/
  rxHeld   : List Bytes
  /-- The values returned so far, oldest first (60_exceptions.md R160, 70_reset_and_hazards.md R205; log 4). It is not a status
  register (10_state.md R26): nothing in the block reads it. -/
  returned : List Result
deriving DecidableEq, Repr

/-- What stops the machine. The block itself never traps (60_exceptions.md R160): both faults need a configuration that R14
refuses to instantiate (log 9). -/
inductive Fault where
  /-- ENCODE or FRAME under an ill-formed configuration, where `num_to_bytes` is undefined (30_encoding.md R64). Safe. -/
  | numberUnrepresentable
  /-- OBSERVE under an ill-formed configuration with frames of no bytes, where its loop does not end (42_observe.md R140). Safe.
  -/
  | observeDiverges
deriving DecidableEq, Repr

/-- Why an input is given no meaning. -/
inductive Refusal where
  /-- Raised by `exec` for an instruction the model has not reached. No arm raises it now. Safe. -/
  | notModelled (mnemonic : String)
  /-- Raised by the select codes 6 and 7, which name no operation (30_encoding.md R94(a), U16). Safe. -/
  | reservedSelect (code : BitVec 3)
  /-- Raised by `step` for an input that decodes to no instruction (log 7). Safe. -/
  | undecodable (e : DecodeError)
  /-- Raised by FRAME where no frame of that opcode and payload exists (opcode table, row FRAME: "legal iff"; log 8). Safe. -/
  | noSuchFrame (reason : EncodeRefusal)
  /-- Raised by ESC_PAIR with ESC_EN false, where no escape pair exists (00_scope.md R12: "no escaping exists"; log 8). Safe. -/
  | noEscapeLayer
deriving DecidableEq, Repr

/-- The machine right after reset, and when an instance is created: `RXBUF = []`, `RXOFF = 0` (10_state.md R30,
70_reset_and_hazards.md R190), the control registers at the reference ("reset") values of R27 (log 2), nothing presented,
held or returned. -/
def State.reset : State :=
  { cfg := cfgRef, rxbuf := [], rxoff := 0, inputs := [], rxHeld := [], returned := [] }

end Sys2Proof.Machine
end

