-- ==== Sys2Proof/Machine/Ops.lean ====
section
/-!
DEFINITION. The named operations over the state that the meanings share. There is no exception to take and none to return from
(60_exceptions.md R160, R167): what takes their place is `State.ret`, by which an operation reports its outcome as a value,
and `State.consume`, the only state an error outcome changes.
-/

namespace Sys2Proof.Machine

/-- Hands a value to the client (60_exceptions.md R160). -/
def State.ret (s : State) (r : Result) : State := { s with returned := s.returned ++ [r] }

/-- Removes the first `n` bytes of RXBUF and advances RXOFF (41_decode.md R111; 20_memory.md R46). -/
def State.consume (s : State) (n : Nat) : State :=
  { s with rxbuf := s.rxbuf.drop n, rxoff := advanceOffset s.cfg s.rxoff n }

/-- Whether `n` bytes fit a buffer of capacity `cap` (20_memory.md R47). -/
def fits (cap : Option Nat) (n : Nat) : Bool :=
  match cap with
  | none => true
  | some k => decide (n ≤ k)

/-- Whether a PUSH of `bytes` is enabled (41_decode.md R110). While the receive source holds earlier bytes, a later PUSH waits
behind them: bytes are delivered in arrival order (70_reset_and_hazards.md R204; log 6). -/
def State.pushEnabled (s : State) (bytes : Bytes) : Bool :=
  s.rxHeld.isEmpty && fits s.cfg.rxcap (s.rxbuf.length + bytes.length)

/-- Bytes arrive: appended to RXBUF if the PUSH is enabled, else held by the receive source (41_decode.md R110, 20_memory.md
R47). -/
def State.receive (s : State) (bytes : Bytes) : State :=
  if s.pushEnabled bytes then { s with rxbuf := s.rxbuf ++ bytes }
  else { s with rxHeld := s.rxHeld ++ [bytes] }

/-- The held PUSHes, taken in order as long as they are enabled: the buffer after them and what is still held (20_memory.md
R47; log 6). -/
def deliverHeld (cap : Option Nat) (buf : Bytes) : List Bytes → Bytes × List Bytes
  | [] => (buf, [])
  | h :: hs => if fits cap (buf.length + h.length) then deliverHeld cap (buf ++ h) hs else (buf, h :: hs)

/-- The receive source's turn: it takes the PUSHes it holds that are now enabled (20_memory.md R47; log 6). It changes nothing
when nothing is held. -/
def State.receiveTurn (s : State) : State :=
  { s with
    rxbuf := (deliverHeld s.cfg.rxcap s.rxbuf s.rxHeld).1
    rxHeld := (deliverHeld s.cfg.rxcap s.rxbuf s.rxHeld).2 }

/-- What `step` adds around an instruction: the receive source's turn, after a next state. -/
def afterInstr : Host.Outcome State Fault Refusal → Host.Outcome State Fault Refusal
  | .next s => .next s.receiveTurn
  | .fault f => .fault f
  | .refused r => .refused r

/-- An instance under a well-formed configuration, in the state of 10_state.md R30. An ill-formed configuration is refused:
there is no proof to give (00_scope.md R14, 93_implementation_defined.md U14). -/
def State.instantiate (c : Config) (_ : c.WellFormed) : State := { State.reset with cfg := c }

end Sys2Proof.Machine
end

