-- ==== Sys2Proof/Machine/Line.lean ====
section
/-!
DEFINITION. The two wire patterns of the opcode table, FRAME (30_encoding.md R60) and ESC_PAIR (R87). They name no operation of
R93: what the peer puts on the wire reaches the block as the content of PUSH (70_reset_and_hazards.md R204; log 8).
-/

namespace Sys2Proof.Machine

/-- FRAME: the wire bytes of one frame arrive, SOF, LEN, OPC, MSG, CHK, escaped as the configuration says (30_encoding.md R60).
Where no such frame exists there is nothing to arrive (opcode table, row FRAME: "legal iff"). -/
def execFrame (opcode : Nat) (msg : Bytes) (s : State) : Host.Outcome State Fault Refusal :=
  match encodeFn s.cfg opcode msg with
  | some (.bytes w) => .next (s.receive w)
  | some (.refused r) => .refused (.noSuchFrame r)
  | none => .fault .numberUnrepresentable

/-- ESC_PAIR: the two bytes ESC, X arrive (30_encoding.md R87). Every X arrives; an illegal one is DECODE's to report as
BadEscape (R94(c)). With ESC_EN false no escape pair exists (00_scope.md R12). -/
def execEscPair (x : Byte) (s : State) : Host.Outcome State Fault Refusal :=
  if s.cfg.escEn then .next (s.receive [s.cfg.esc, x]) else .refused .noEscapeLayer

end Sys2Proof.Machine
end

