-- ==== Sys2Proof/Machine/Receive.lean ====
section
/-!
DEFINITION. The receive side: PUSH and DECODE (41_decode.md) and OBSERVE (42_observe.md).
-/

namespace Sys2Proof.Machine

/-- PUSH bytes (41_decode.md R110): appended at the tail of RXBUF, never inspected; returns nothing. A PUSH that is not enabled
takes no step and its bytes wait with the receive source (20_memory.md R47; log 6). -/
def execPush (bytes : Bytes) (s : State) : Host.Outcome State Fault Refusal :=
  .next (s.receive bytes)

/-- DECODE (41_decode.md R111): judges the head of RXBUF once, consumes what it judged and returns the verdict, the count and
the consumed bytes. -/
def execDecode (s : State) : Host.Outcome State Fault Refusal :=
  let n := (decodeFn s.cfg s.rxbuf).2
  .next ((s.consume n).ret (.decoded (decodeFn s.cfg s.rxbuf).1 n (s.rxbuf.take n)))

/-- OBSERVE (42_observe.md R140): decodes everything that can be decoded and returns the list of events. -/
def execObserve (s : State) : Host.Outcome State Fault Refusal :=
  match observeFn s.cfg s.rxbuf s.rxoff with
  | some (events, buf, off) => .next (State.ret { s with rxbuf := buf, rxoff := off } (.observed events))
  | none => .fault .observeDiverges

end Sys2Proof.Machine
end

