-- ==== Sys2Proof/Machine/System.lean ====
section
/-!
DEFINITION. The operations of the environment: TIMEOUT and RESET (43_system.md), and the two reserved select codes
(30_encoding.md R94(a)).
-/

namespace Sys2Proof.Machine

/-- TIMEOUT (43_system.md R150): nothing if the buffer is empty or a verdict is ready; else the stalled candidate is dropped up
to the next plausible marker. -/
def execTimeout (s : State) : Host.Outcome State Fault Refusal :=
  if s.rxbuf.length = 0 then .next (s.ret (.timedOut .noAction 0 []))
  else if decodeFn s.cfg s.rxbuf ≠ (.needMoreBytes, 0) then .next (s.ret (.timedOut .noAction 0 []))
  else
    let n := nextMarker s.cfg s.rxbuf 1
    .next ((s.consume n).ret (.timedOut (.invalid .stalled) n (s.rxbuf.take n)))

/-- RESET (43_system.md R152): RXBUF empty, RXOFF 0, nothing returned; `cfg` unchanged. -/
def execReset (s : State) : Host.Outcome State Fault Refusal :=
  .next { s with rxbuf := [], rxoff := 0 }

/-- Select code 6 names no operation: refused, no step (30_encoding.md R94(a)). -/
def execReserved6 (_ : State) : Host.Outcome State Fault Refusal := .refused (.reservedSelect 6)

/-- Select code 7 names no operation: refused, no step (30_encoding.md R94(a)). -/
def execReserved7 (_ : State) : Host.Outcome State Fault Refusal := .refused (.reservedSelect 7)

end Sys2Proof.Machine
end

