-- ==== Sys2Proof/Machine/Transmit.lean ====
section
/-!
DEFINITION. The transmit side: ENCODE (40_encode.md).
-/

namespace Sys2Proof.Machine

/-- ENCODE opcode payload (40_encode.md R100 to R104): returns `Bytes(wire)` or `Refused(reason)`; RXBUF and RXOFF are neither
read nor written. -/
def execEncode (opcode : Nat) (payload : Bytes) (s : State) : Host.Outcome State Fault Refusal :=
  match encodeFn s.cfg opcode payload with
  | some r => .next (s.ret (.encoded r))
  | none => .fault .numberUnrepresentable

end Sys2Proof.Machine
end

