-- ==== Sys2Proof/Machine/Dispatch.lean ====
section
/-!
DEFINITION. exec: one arm per constructor of Instr, each one direct call of its meaning.
-/

namespace Sys2Proof.Machine

def exec (i : Instr) (s : State) : Host.Outcome State Fault Refusal :=
  match i with
  | .encode opcode payload => Sys2Proof.Machine.execEncode opcode payload s
  | .push bytes => Sys2Proof.Machine.execPush bytes s
  | .decode => Sys2Proof.Machine.execDecode s
  | .observe => Sys2Proof.Machine.execObserve s
  | .timeout => Sys2Proof.Machine.execTimeout s
  | .reset => Sys2Proof.Machine.execReset s
  | .reserved6 => Sys2Proof.Machine.execReserved6 s
  | .reserved7 => Sys2Proof.Machine.execReserved7 s
  | .frame opcode msg => Sys2Proof.Machine.execFrame opcode msg s
  | .escPair x => Sys2Proof.Machine.execEscPair x s

end Sys2Proof.Machine
end

