-- ==== Sys2Proof/Machine/Step.lean ====
section
/-!
DEFINITION. One step of the machine (20_memory.md R50): the next input is decoded and run, then the receive source has its turn.
With no input nothing is invoked and the block idles (60_exceptions.md R175; log 11).
-/

namespace Sys2Proof.Machine

/-- One step. -/
def step (s : State) : Host.Outcome State Fault Refusal :=
  match s.inputs with
  | [] => .next s.receiveTurn
  | inp :: rest =>
    match decodeInstr s.cfg inp with
    | .ok i => afterInstr (exec i { s with inputs := rest })
    | .error e => .refused (.undecodable e)

/-- The state in which the very next step runs the instruction of a word of the opcode table: its input is put first (log 5).
-/
def State.withFetchWord (s : State) (nbits w : Nat) : State :=
  { s with inputs := tableInput nbits w :: s.inputs }

end Sys2Proof.Machine
end

