-- ==== Sys2Proof/Machine/Flags.lean ====
section
/-!
DEFINITION. The hardware has no flags, condition codes or status bits (10_state.md R26). Its one derived status is the decoder
phase DPHASE (10_state.md R29), which no operation reads.
-/

namespace Sys2Proof

/-- The phase of a buffer whose head is the whole marker and whose verdict is NeedMoreBytes: the first of length field, body
and check field that is not complete (10_state.md R29). -/
def partialPhase (c : Config) (buf : Bytes) : Phase :=
  match take c buf c.sof.length c.lw with
  | .ok lenBytes i1 =>
    match take c buf i1 ((bytesToNum lenBytes c.endian : Int) - c.lenAdj).toNat with
    | .ok _ _ => .check
    | _ => .body
  | _ => .len

/-- `DPHASE(cfg, buf)` (10_state.md R29). -/
def dphase (c : Config) (buf : Bytes) : Phase :=
  if buf.length = 0 then .idle
  else if nextMarker c buf 0 > 0 then .hunt
  else if buf.length < c.sof.length then .mark
  else if (decodeFn c buf).1 = .needMoreBytes then partialPhase c buf
  else .ready

end Sys2Proof
end

