-- ==== Sys2Proof/Machine/Outcomes.lean ====
section
/-!
DEFINITION. The codes of the outcomes (60_exceptions.md R161), a tabulation no rule depends on (D23): `(2, 1)` is the table's
2.1, `(0, 0)` its 0.
-/

namespace Sys2Proof

/-- The code of an InvalidFrame reason (60_exceptions.md R161). -/
def reasonCode : InvalidReason → Nat × Nat
  | .badLength => (2, 1)
  | .badChecksum => (2, 2)
  | .noMarker => (2, 3)
  | .badEscape => (2, 4)
  | .stalled => (2, 5)

/-- The code of a verdict of DECODE. -/
def verdictCode : Verdict → Nat × Nat
  | .frame _ => (0, 0)
  | .needMoreBytes => (1, 0)
  | .invalid r => reasonCode r

/-- The code of what TIMEOUT returns. -/
def timeoutCode : TimeoutVerdict → Nat × Nat
  | .noAction => (3, 0)
  | .invalid r => reasonCode r

/-- The code of what ENCODE returns. -/
def encodeCode : EncodeResult → Nat × Nat
  | .bytes _ => (4, 0)
  | .refused .opcodeRange => (5, 1)
  | .refused .bodyTooLong => (5, 2)

/-- The code an event wraps: OBSERVE wraps codes 0 and 2.1 to 2.4. -/
def eventCode : Event → Nat × Nat
  | .frameEvent _ _ _ => (0, 0)
  | .rawSegment _ _ r => reasonCode r

/-- The codes of a returned value, one for each outcome it holds. -/
def resultCodes : Result → List (Nat × Nat)
  | .encoded r => [encodeCode r]
  | .decoded v _ _ => [verdictCode v]
  | .observed es => es.map eventCode
  | .timedOut v _ _ => [timeoutCode v]

/-- The class FrameError of DOC0, which is InvalidFrame under another name (60_exceptions.md R162). -/
def isFrameError : Verdict → Bool
  | .invalid _ => true
  | _ => false

end Sys2Proof
end

