-- ==== Sys2Proof/Machine/Programs.lean ====
section
/-!
DEFINITION. Sequences of operations on one instance (70_reset_and_hazards.md R205), the pseudo-operation DRAIN (30_encoding.md
R96), and several instances side by side (10_state.md R32, 60_exceptions.md R173).
-/

namespace Sys2Proof.Machine

/-- One operation of a run, as `step` takes it: exec, then the receive source's turn. DESIGN CHOICE (log 6): the spec does not fix
when a held PUSH is delivered (20_memory.md R47); here as in `step` it is delivered after the first instruction that makes room.
-/
def perform (i : Instr) (s : State) : Host.Outcome State Fault Refusal := afterInstr (exec i s)

/-- A finite run (70_reset_and_hazards.md R205): the operations of a list in order, stopping at the first fault or refusal. Held
PUSHes are delivered after each of them, as in `step` (DESIGN CHOICE, log 6). -/
def runInstrs : List Instr → State → Host.Outcome State Fault Refusal
  | [], s => .next s
  | i :: is, s =>
    match perform i s with
    | .next s' => runInstrs is s'
    | .fault f => .fault f
    | .refused r => .refused r

/-- An infinite run (70_reset_and_hazards.md R205) is a sequence of operations without end; this is what its first `n` operations
do. -/
def runPrefix (ops : Nat → Instr) (n : Nat) (s : State) : Host.Outcome State Fault Refusal :=
  runInstrs ((List.range n).map ops) s

/-- DECODE until it returns NeedMoreBytes, at most `fuel` times. -/
def drainLoop : Nat → State → Host.Outcome State Fault Refusal
  | 0, s => .next s
  | fuel + 1, s =>
    match exec .decode s with
    | .next s' => if (decodeFn s.cfg s.rxbuf).1 = .needMoreBytes then .next s' else drainLoop fuel s'
    | .fault f => .fault f
    | .refused r => .refused r

/-- DRAIN: "repeat DECODE until it returns NeedMoreBytes" (30_encoding.md R96). One DECODE more than there are bytes is enough
(41_decode.md R118). Between its DECODEs no other agent takes a step, the receive source neither: of the interleavings D28 admits,
DESIGN CHOICE (log 6), the one in which 42_observe.md R141 compares it with OBSERVE. Held PUSHes are delivered after the next
operation performed. -/
def drain (s : State) : Host.Outcome State Fault Refusal := drainLoop (s.rxbuf.length + 1) s

/-- An operation on instance number `k` of several (10_state.md R32, 60_exceptions.md R173); with no such instance nothing happens.
DESIGN CHOICE (log 6, log 17): the operation is performed as `step` takes it, so that the receive source of that instance, and of
no other, then delivers the held PUSHes that fit. -/
def execAt (k : Nat) (i : Instr) (all : List State) : Host.Outcome (List State) Fault Refusal :=
  match all[k]? with
  | none => .next all
  | some s =>
    match perform i s with
    | .next s' => .next (all.set k s')
    | .fault f => .fault f
    | .refused r => .refused r

end Sys2Proof.Machine
end

