-- ==== Sys2Proof/Machine/Text.lean ====
section
/-!
DEFINITION. The line syntax in which the spec writes operations (30_encoding.md R96). A wire pattern is written as the PUSH it
reaches the block as (70_reset_and_hazards.md R204); a reserved select code and a wire pattern that does not exist have no line.
-/

namespace Sys2Proof

/-- One upper-case hexadecimal digit. -/
def hexDigit (n : Nat) : Char := if n < 10 then Char.ofNat (48 + n) else Char.ofNat (55 + n)

/-- The hexadecimal digits of `v`, at least two, in at most `2 * k` digits. -/
def hexDigits : Nat → Nat → List Char
  | 0, _ => []
  | k + 1, v => (if v < 256 then [] else hexDigits k (v / 256)) ++ [hexDigit (v / 16 % 16), hexDigit (v % 16)]

/-- Drops one leading zero of three or more digits: `0x100`, not `0x0100` (95_test_vectors.md E8). -/
def trimZero : List Char → List Char
  | '0' :: a :: b :: rest => a :: b :: rest
  | ds => ds

/-- A number as R96 writes an opcode: `0x02`. -/
def hexNumber (v : Nat) : List Char := '0' :: 'x' :: trimZero (hexDigits (v + 1) v)

/-- Bytes separated by blanks. -/
def hexBytes : Bytes → List Char
  | [] => []
  | [b] => hexDigits 1 b.toNat
  | b :: bs => hexDigits 1 b.toNat ++ ' ' :: hexBytes bs

/-- A byte sequence in brackets. -/
def bracketed (b : Bytes) : List Char := '[' :: hexBytes b ++ [']']

/-- An instruction in the line syntax of R96. -/
def instrText (c : Config) : Instr → Option (List Char)
  | .encode op pl => some ("ENCODE op=".toList ++ hexNumber op ++ " payload=".toList ++ bracketed pl)
  | .push b => some ("PUSH ".toList ++ bracketed b)
  | .decode => some "DECODE".toList
  | .observe => some "OBSERVE".toList
  | .timeout => some "TIMEOUT".toList
  | .reset => some "RESET".toList
  | .reserved6 => none
  | .reserved7 => none
  | .frame op msg => (frameWire c op msg).map (fun w => "PUSH ".toList ++ bracketed w)
  | .escPair x => if c.escEn then some ("PUSH ".toList ++ bracketed [c.esc, x]) else none

end Sys2Proof
end

