-- ==== Sys2Proof/Safety.lean ====
section
/-!
DEFINITION. The terms in which claims speak: the valid Frame (10_state.md R25), the invariant of an instance, what a run shows
(70_reset_and_hazards.md R205), and the rows of the phase table (10_state.md R29).
-/

namespace Sys2Proof

/-- The invariant of every Frame the codec returns (10_state.md R25). -/
structure FrameValid (c : Config) (f : Frame) : Prop where
  sof : f.sof = c.sof
  lengthWidth : f.length < 2 ^ (8 * c.lw)
  payloadMin : c.opw ≤ f.payload.length
  payloadMax : f.payload.length ≤ c.maxBody
  checksumWidth : f.checksum < 2 ^ (8 * c.cw)
  length : (f.length : Int) = f.payload.length + c.lenAdj
  checksum : ∃ lenBytes, numToBytes f.length c.lw c.endian = some lenBytes ∧
    f.checksum = checkFn c (lenBytes ++ f.payload)

/-- The frames of a list of events. -/
def eventFrames (es : List Event) : List (Nat × Frame) :=
  es.filterMap fun
    | .frameEvent off f _ => some (off, f)
    | .rawSegment _ _ _ => none

/-- The frames a returned value hands to the client. -/
def resultFrames : Result → List Frame
  | .decoded (.frame f) _ _ => [f]
  | .observed es => (eventFrames es).map Prod.snd
  | _ => []

/-- The bytes of an event. -/
def eventBytes : Event → Bytes
  | .frameEvent _ _ w => w
  | .rawSegment _ b _ => b

/-- The consumed bytes a returned value hands back (20_memory.md R46). -/
def resultRaw : Result → Bytes
  | .encoded _ => []
  | .decoded _ _ raw => raw
  | .observed es => (es.map eventBytes).flatten
  | .timedOut _ _ raw => raw

/-- All consumed bytes of a list of returned values, in order. -/
def rawLog (rs : List Result) : Bytes := (rs.map resultRaw).flatten

/-- The events a list of returned values amounts to when the first of them was returned at stream offset `off`: the result of
each DECODE stamped with the offset it was taken at, and the events of each OBSERVE (42_observe.md R141). -/
def eventLog (c : Config) : Nat → List Result → List Event
  | _, [] => []
  | off, r :: rs =>
    (match r with
      | .decoded v _ raw => (eventOf off raw v).toList
      | .observed es => es
      | _ => []) ++ eventLog c (advanceOffset c off (resultRaw r).length) rs

/-- The transmit stream: the byte sequences ENCODE returned, in order (10_state.md R31, 20_memory.md R49). -/
def txStream (rs : List Result) : List Bytes :=
  rs.filterMap fun
    | .encoded (.bytes w) => some w
    | _ => none

/-- The bytes an instruction brings to the receive side under `c`. -/
def arriving (c : Config) : Instr → Bytes
  | .push b => b
  | .frame op msg => (frameWire c op msg).getD []
  | .escPair x => [c.esc, x]
  | _ => []

/-- The condition of each row of the phase table (10_state.md R29), with `n = len(buf)`, `p = next_marker(cfg, buf, 0)` and
`o` the verdict. MARK is read with `n > 0`: at `n = 0` the row IDLE stands (log 12). -/
def phaseRow (c : Config) (buf : Bytes) : Phase → Prop
  | .idle => buf.length = 0
  | .hunt => buf.length > 0 ∧ nextMarker c buf 0 > 0
  | .mark => buf.length > 0 ∧ nextMarker c buf 0 = 0 ∧ buf.length < c.sof.length
  | .len => nextMarker c buf 0 = 0 ∧ c.sof.length ≤ buf.length ∧ (decodeFn c buf).1 = .needMoreBytes ∧
      take c buf c.sof.length c.lw = .more
  | .body => nextMarker c buf 0 = 0 ∧ (decodeFn c buf).1 = .needMoreBytes ∧
      ∃ (lenBytes : Bytes) (i1 b : Nat), take c buf c.sof.length c.lw = .ok lenBytes i1 ∧
        (b : Int) = bytesToNum lenBytes c.endian - c.lenAdj ∧ c.opw ≤ b ∧ b ≤ c.maxBody ∧ take c buf i1 b = .more
  | .check => nextMarker c buf 0 = 0 ∧ (decodeFn c buf).1 = .needMoreBytes ∧
      ∃ (lenBytes : Bytes) (i1 b : Nat) (body : Bytes) (i2 : Nat), take c buf c.sof.length c.lw = .ok lenBytes i1 ∧
        (b : Int) = bytesToNum lenBytes c.endian - c.lenAdj ∧ c.opw ≤ b ∧ b ≤ c.maxBody ∧
        take c buf i1 b = .ok body i2 ∧ take c buf i2 c.cw = .more
  | .ready => nextMarker c buf 0 = 0 ∧ ((∃ f, (decodeFn c buf).1 = .frame f) ∨ ∃ r, (decodeFn c buf).1 = .invalid r)

namespace Machine

/-- The verdict on RXBUF is `(NeedMoreBytes, 0)`: one half of "over" (70_reset_and_hazards.md R205), see `State.Over`. -/
def State.Drained (s : State) : Prop := decodeFn s.cfg s.rxbuf = (.needMoreBytes, 0)

/-- The bytes the inputs have still to bring to the receive side. -/
def State.streamLeft (s : State) : Bytes :=
  (s.inputs.map fun inp =>
    match decodeInstr s.cfg inp with
    | .ok i => arriving s.cfg i
    | .error _ => []).flatten

/-- The machine's run is over (70_reset_and_hazards.md R205): every byte of the received stream has been pushed, none left in the
inputs and no PUSH held (log 6), and the verdict is `(NeedMoreBytes, 0)`. -/
structure State.Over (s : State) : Prop where
  pushed : s.streamLeft = []
  held : s.rxHeld = []
  drained : s.Drained

/-- The finite run `ops` from `s` over the received stream `stream` ends in `t` and is over (70_reset_and_hazards.md R205): its
operations have brought every byte of the stream, none is held (log 6), and the verdict is `(NeedMoreBytes, 0)`. -/
structure RunOver (stream : Bytes) (ops : List Instr) (s t : State) : Prop where
  stream : (ops.map (arriving s.cfg)).flatten = stream
  run : runInstrs ops s = .next t
  held : t.rxHeld = []
  drained : t.Drained

/-- What is observed of a finished run (70_reset_and_hazards.md R205): the ordered list of returned outcomes, the final RXBUF and
the final RXOFF. -/
def observation (s : State) : List Result × Bytes × Nat := (s.returned, s.rxbuf, s.rxoff)

/-- The first PUSH the receive source holds is not enabled. -/
def heldBlocked (s : State) : Prop :=
  match s.rxHeld with
  | [] => True
  | h :: _ => fits s.cfg.rxcap (s.rxbuf.length + h.length) = false

/-- The invariant of an instance: a legal configuration, RXOFF within OFFW bits (10_state.md R24), RXBUF within RXCAP (R23),
nothing held that could be delivered (20_memory.md R47), and every Frame handed out valid (R25). -/
structure State.Inv (s : State) : Prop where
  config : s.cfg.wf = true
  offset : s.rxoff < 2 ^ s.cfg.offw
  capacity : fits s.cfg.rxcap s.rxbuf.length = true
  held : heldBlocked s
  frames : ∀ r ∈ s.returned, ∀ f ∈ resultFrames r, FrameValid s.cfg f

/-- The next state of an outcome, where it has one. -/
def nextOf : Host.Outcome State Fault Refusal → Option State
  | .next s => some s
  | _ => none

end Machine

end Sys2Proof
end

