-- ==== Sys2Proof/Certificates/Slice0/Obligations.lean ====
section
/-!
DEFINITION. The statements for the provers. Each docstring names the rule, or the sentence of the spec, it formalises.
-/

open Sys2Proof Sys2Proof.Machine

/-! ### Reset, create, step -/

/-- R30, R190: after RESET, and when an instance is created, RXBUF is empty and RXOFF is 0, the phase is IDLE, and `cfg` has the
values given at instantiation. -/
def Obligations.ResetAndCreationLeaveAnEmptyBuffer : Prop :=
  State.reset.rxbuf = [] ∧ State.reset.rxoff = 0 ∧ dphase State.reset.cfg State.reset.rxbuf = .idle ∧
  (∀ (c : Config) (h : c.WellFormed), (State.instantiate c h).rxbuf = [] ∧ (State.instantiate c h).rxoff = 0 ∧
    (State.instantiate c h).cfg = c) ∧
  ∀ s : State, ∃ t, exec .reset s = .next t ∧ t.rxbuf = [] ∧ t.rxoff = 0 ∧ t.cfg = s.cfg ∧ dphase t.cfg t.rxbuf = .idle

/-- A step runs the decoded instruction. The model's own choices: the list of inputs (log 5), the receive source's turn after
every instruction (log 6), idling (log 11), the refusal of stray operands (log 7). When the first input decodes to an
instruction, well formed or not, step is exec of it on the state without that input, followed by the receive source's turn,
which changes nothing when nothing is held. With no input the block idles but for that turn; an input that decodes to nothing is
refused by name. -/
def Obligations.StepRunsTheDecodedInstruction : Prop :=
  (∀ (s : State) (inp : Input) (rest : List Input) (i : Instr), s.inputs = inp :: rest →
    decodeInstr s.cfg inp = .ok i →
    step s = afterInstr (exec i { s with inputs := rest }) ∧
    ∀ t, exec i { s with inputs := rest } = .next t →
      step s = .next t.receiveTurn ∧ (t.rxHeld = [] → t.receiveTurn = t)) ∧
  (∀ s : State, s.inputs = [] → step s = .next s.receiveTurn) ∧
  ∀ (s : State) (inp : Input) (rest : List Input) (e : DecodeError), s.inputs = inp :: rest →
    decodeInstr s.cfg inp = .error e → step s = .refused (.undecodable e)

/-- The select codes of R93 as the opcode table numbers them, the frame of R106's first row and the escape pair of R87's
example, decoded from words written out from the spec. -/
def Obligations.TableWordsDecodeToTheirRows : Prop :=
  decodeTableWord 8 0b000 = some (.encode 0 []) ∧ decodeTableWord 8 0b001 = some (.push []) ∧
  decodeTableWord 8 0b010 = some .decode ∧ decodeTableWord 8 0b011 = some .observe ∧
  decodeTableWord 8 0b100 = some .timeout ∧ decodeTableWord 8 0b101 = some .reset ∧
  decodeTableWord 8 0b110 = some .reserved6 ∧ decodeTableWord 8 0b111 = some .reserved7 ∧
  decodeInstr cfgRef (.line [0xAA, 0x55, 0x01, 0x00, 0x01, 0x8D, 0xEB]) = .ok (.frame 0x01 []) ∧
  decodeInstr cfgEsc (.line [0x7D, 0x5E]) = .ok (.escPair 0x5E)

/-! ### The six operations and the four other rows: where they complete and what they leave -/

/-- R100, R102, R103: under a legal configuration ENCODE always completes. It changes nothing but the list of returned values:
`Refused(OpcodeRange)` first, then `Refused(BodyTooLong)`, else SOF followed by the length field, the opcode, the payload and
the check field over the logical bytes, escaped where ESC_EN. -/
def Obligations.EncodeReturnsTheWireFrameOrRefuses : Prop :=
  ∀ (s : State) (opcode : Nat) (payload : Bytes), s.cfg.wf = true →
    (2 ^ (8 * s.cfg.opw) ≤ opcode →
      exec (.encode opcode payload) s =
        .next { s with returned := s.returned ++ [.encoded (.refused .opcodeRange)] }) ∧
    (opcode < 2 ^ (8 * s.cfg.opw) → s.cfg.maxBody < s.cfg.opw + payload.length →
      exec (.encode opcode payload) s =
        .next { s with returned := s.returned ++ [.encoded (.refused .bodyTooLong)] }) ∧
    (opcode < 2 ^ (8 * s.cfg.opw) → s.cfg.opw + payload.length ≤ s.cfg.maxBody →
      ∃ (lval : Nat) (opc lenBytes chk : Bytes), (lval : Int) = (s.cfg.opw + payload.length : Nat) + s.cfg.lenAdj ∧
        numToBytes opcode s.cfg.opw s.cfg.endian = some opc ∧
        numToBytes lval s.cfg.lw s.cfg.endian = some lenBytes ∧
        numToBytes (checkFn s.cfg (lenBytes ++ opc ++ payload)) s.cfg.cw s.cfg.endian = some chk ∧
        exec (.encode opcode payload) s = .next { s with returned := s.returned ++
          [.encoded (.bytes (s.cfg.sof ++ escape s.cfg (lenBytes ++ opc ++ payload ++ chk)))] })

/-- R110: a PUSH that is enabled completes: it appends its bytes to RXBUF, changes nothing else and returns nothing. PUSH of
nothing is a no-op, and pushing `a` then `b` is the same as pushing `a ++ b`. (What a PUSH does that is not enabled, or that
comes behind held bytes, is APushThatIsNotEnabledWaits.) -/
def Obligations.PushAppendsItsBytes : Prop :=
  ∀ s : State, s.rxHeld = [] →
    (∀ bytes : Bytes, (∀ cap, s.cfg.rxcap = some cap → s.rxbuf.length + bytes.length ≤ cap) →
      exec (.push bytes) s = .next { s with rxbuf := s.rxbuf ++ bytes }) ∧
    ((∀ cap, s.cfg.rxcap = some cap → s.rxbuf.length ≤ cap) → exec (.push []) s = .next s) ∧
    ∀ a b : Bytes, (∀ cap, s.cfg.rxcap = some cap → s.rxbuf.length + (a ++ b).length ≤ cap) →
      runInstrs [.push a, .push b] s = exec (.push (a ++ b)) s

/-- The model's choice for a PUSH that is not enabled (20_memory.md R47 says only that the receive source holds the bytes; log 6):
beyond a bounded RXCAP, and behind bytes already held, it leaves the block as it is and its bytes wait in `rxHeld`. -/
def Obligations.APushThatIsNotEnabledWaits : Prop :=
  ∀ (s : State) (bytes : Bytes),
    (∀ cap, s.cfg.rxcap = some cap → cap < s.rxbuf.length + bytes.length →
      exec (.push bytes) s = .next { s with rxHeld := s.rxHeld ++ [bytes] }) ∧
    (s.rxHeld ≠ [] → exec (.push bytes) s = .next { s with rxHeld := s.rxHeld ++ [bytes] })

/-- R111: DECODE completes in every state: it consumes what `decode_fn` judged, advances RXOFF, returns the verdict, the count and
the consumed bytes, and changes nothing else. The verdict is a Frame, NeedMoreBytes or one of four InvalidFrame reasons. -/
def Obligations.DecodeConsumesWhatItJudged : Prop :=
  ∀ (s : State) (v : Verdict) (n : Nat), decodeFn s.cfg s.rxbuf = (v, n) →
    exec .decode s = .next { s with
      rxbuf := s.rxbuf.drop n
      rxoff := (s.rxoff + n) % 2 ^ s.cfg.offw
      returned := s.returned ++ [.decoded v n (s.rxbuf.take n)] } ∧
    ((∃ f, v = .frame f) ∨ v = .needMoreBytes ∨
      v ∈ [Verdict.invalid .noMarker, .invalid .badLength, .invalid .badChecksum, .invalid .badEscape])

/-- R140: OBSERVE completes under every legal configuration. With verdict NeedMoreBytes it returns the empty list and changes
nothing else; otherwise it returns the event of the verdict, stamped with RXOFF, followed by what OBSERVE returns on the state
after that consumption, and leaves the state that one leaves. -/
def Obligations.ObserveDecodesEverythingThere : Prop :=
  ∀ s : State, s.cfg.wf = true →
    (∃ es t, exec .observe s = .next t ∧ t.returned = s.returned ++ [.observed es] ∧ t.cfg = s.cfg ∧
      t.inputs = s.inputs ∧ t.rxHeld = s.rxHeld) ∧
    ((decodeFn s.cfg s.rxbuf).1 = .needMoreBytes →
      exec .observe s = .next { s with returned := s.returned ++ [.observed []] }) ∧
    ∀ e, eventOf s.rxoff (s.rxbuf.take (decodeFn s.cfg s.rxbuf).2) (decodeFn s.cfg s.rxbuf).1 = some e →
      ∃ es t, exec .observe (s.consume (decodeFn s.cfg s.rxbuf).2) = .next t ∧
        t.returned = s.returned ++ [.observed es] ∧
        exec .observe s = .next { t with returned := s.returned ++ [.observed (e :: es)] }

/-- R150: TIMEOUT completes in every state. On an empty buffer and where a verdict is ready it returns (NoAction, 0, []) and
changes nothing else; on a stalled candidate it drops the bytes up to the next plausible marker, at least one and at most all,
and returns them as InvalidFrame(Stalled). -/
def Obligations.TimeoutDropsOnlyAStalledCandidate : Prop :=
  ∀ s : State,
    (s.rxbuf = [] → exec .timeout s = .next { s with returned := s.returned ++ [.timedOut .noAction 0 []] }) ∧
    (decodeFn s.cfg s.rxbuf ≠ (.needMoreBytes, 0) →
      exec .timeout s = .next { s with returned := s.returned ++ [.timedOut .noAction 0 []] }) ∧
    (s.rxbuf ≠ [] → decodeFn s.cfg s.rxbuf = (.needMoreBytes, 0) →
      ∃ n, n = nextMarker s.cfg s.rxbuf 1 ∧ 1 ≤ n ∧ n ≤ s.rxbuf.length ∧
        exec .timeout s = .next { s with
          rxbuf := s.rxbuf.drop n
          rxoff := (s.rxoff + n) % 2 ^ s.cfg.offw
          returned := s.returned ++ [.timedOut (.invalid .stalled) n (s.rxbuf.take n)] })

/-- R152: RESET completes in every state: RXBUF empty, RXOFF 0, `cfg` and everything else unchanged, nothing returned. -/
def Obligations.ResetClearsBufferAndOffset : Prop :=
  ∀ s : State, exec .reset s = .next { s with rxbuf := [], rxoff := 0 }

/-- R153: RESET is always enabled, in every decoder phase, and idempotent, and does not affect what has already been returned;
buffer and offset are reset together. -/
def Obligations.ResetIsIdempotent : Prop :=
  ∀ s : State, ∃ t, exec .reset s = .next t ∧ exec .reset t = .next t ∧ t.returned = s.returned ∧
    t.rxbuf = [] ∧ t.rxoff = 0

/-- R94(a): select codes 6 and 7 name no operation and are refused, in every state. -/
def Obligations.ReservedSelectCodesAreRefused : Prop :=
  ∀ s : State, exec .reserved6 s = .refused (.reservedSelect 6) ∧ exec .reserved7 s = .refused (.reservedSelect 7)

/-- The model's choice for the table's row FRAME (log 8): a frame that exists arrives as a PUSH of exactly the bytes ENCODE
returns for it, and changes nothing else; one that does not exist is refused by name. -/
def Obligations.FrameArrivesAsItsWireBytes : Prop :=
  ∀ (s : State) (opcode : Nat) (msg : Bytes), s.cfg.wf = true →
    (opcode < 2 ^ (8 * s.cfg.opw) → s.cfg.opw + msg.length ≤ s.cfg.maxBody →
      ∃ w, exec (.encode opcode msg) s = .next { s with returned := s.returned ++ [.encoded (.bytes w)] } ∧
        exec (.frame opcode msg) s = exec (.push w) s ∧
        (s.pushEnabled w = true → exec (.frame opcode msg) s = .next { s with rxbuf := s.rxbuf ++ w }) ∧
        (s.pushEnabled w = false → exec (.frame opcode msg) s = .next { s with rxHeld := s.rxHeld ++ [w] })) ∧
    (2 ^ (8 * s.cfg.opw) ≤ opcode → exec (.frame opcode msg) s = .refused (.noSuchFrame .opcodeRange)) ∧
    (opcode < 2 ^ (8 * s.cfg.opw) → s.cfg.maxBody < s.cfg.opw + msg.length →
      exec (.frame opcode msg) s = .refused (.noSuchFrame .bodyTooLong))

/-- The model's choice for the table's row ESC_PAIR (log 8): with escaping on, the two bytes ESC, X arrive as a PUSH, for every
X, and nothing else changes; with escaping off there is no escape pair. -/
def Obligations.EscPairArrivesAsTwoBytes : Prop :=
  ∀ (s : State) (x : Byte),
    (s.cfg.escEn = true →
      exec (.escPair x) s = exec (.push [s.cfg.esc, x]) s ∧
      (s.pushEnabled [s.cfg.esc, x] = true →
        exec (.escPair x) s = .next { s with rxbuf := s.rxbuf ++ [s.cfg.esc, x] }) ∧
      (s.pushEnabled [s.cfg.esc, x] = false →
        exec (.escPair x) s = .next { s with rxHeld := s.rxHeld ++ [[s.cfg.esc, x]] })) ∧
    (s.cfg.escEn = false → exec (.escPair x) s = .refused .noEscapeLayer)

/-! ### What holds of every operation -/

/-- R27: the control registers are read-only to every operation; and no operation touches the steps still to be taken. The same
of a step, which takes one input. -/
def Obligations.NoOperationWritesTheConfiguration : Prop :=
  (∀ (i : Instr) (s t : State), exec i s = .next t → t.cfg = s.cfg ∧ t.inputs = s.inputs) ∧
  ∀ s t : State, step s = .next t → t.cfg = s.cfg ∧ t.inputs = s.inputs.drop 1

/-- From R160 and R205, and for a PUSH that is not enabled, and for the rows FRAME and ESC_PAIR, the model's choice (log 6, log 8: it
completes by waiting; in the spec it has no step): under a legal configuration every well-formed instruction completes in every
state, and no instruction faults. -/
def Obligations.LegalInstancesAlwaysComplete : Prop :=
  ∀ (i : Instr) (s : State), s.cfg.wf = true →
    (i.wf s.cfg = true → ∃ t, exec i s = .next t) ∧ ∀ f, exec i s ≠ .fault f

/-- From R26: what has been returned before, and what is still to come, is read by no operation: an operation does to any two
states that agree in the block's own state the same, and returns the same values. -/
def Obligations.ReturnedValuesAreReadByNothing : Prop :=
  ∀ (i : Instr) (s t : State), exec i s = .next t →
    ∃ rs, t.returned = s.returned ++ rs ∧
      ∀ (ins : List Input) (past : List Result),
        exec i { s with inputs := ins, returned := past } = .next { t with inputs := ins, returned := past ++ rs }

/-- From R24: the offset is read only by OBSERVE: what DECODE returns and leaves in RXBUF, and what ENCODE returns, do not depend
on it. -/
def Obligations.OffsetIsNotReadByDecodeOrEncode : Prop :=
  ∀ (s : State) (off : Nat) (op : Nat) (pl : Bytes) (t u : State),
    exec .decode s = .next t → exec (.encode op pl) s = .next u →
    ∃ off', exec .decode { s with rxoff := off } = .next { t with rxoff := off' } ∧
      exec (.encode op pl) { s with rxoff := off } = .next { u with rxoff := off }

/-- From R161, R140: each operation returns outcomes of its own rows of the outcome table only; PUSH, RESET and the wire patterns
return nothing; Stalled comes from TIMEOUT alone. -/
def Obligations.EachOperationReturnsItsOwnOutcomes : Prop :=
  ∀ (i : Instr) (s t : State), exec i s = .next t →
    ∃ rs, t.returned = s.returned ++ rs ∧
      match i with
      | .encode _ _ => ∃ r, rs = [.encoded r] ∧ encodeCode r ∈ [(4, 0), (5, 1), (5, 2)]
      | .decode => ∃ v n raw, rs = [.decoded v n raw] ∧
          verdictCode v ∈ [(0, 0), (1, 0), (2, 1), (2, 2), (2, 3), (2, 4)]
      | .observe => ∃ es, rs = [.observed es] ∧ ∀ e ∈ es, eventCode e ∈ [(0, 0), (2, 1), (2, 2), (2, 3), (2, 4)]
      | .timeout => ∃ v n raw, rs = [.timedOut v n raw] ∧ timeoutCode v ∈ [(2, 5), (3, 0)]
      | _ => rs = []

/-- From R143 and R31: no operation but ENCODE produces bytes for the transmit stream. -/
def Obligations.OnlyEncodeProducesTransmitBytes : Prop :=
  ∀ (i : Instr) (s t : State), exec i s = .next t → (∀ op pl, i ≠ .encode op pl) →
    txStream t.returned = txStream s.returned

/-- Several instances are the model's list of states (log 17; R32, R173 say that instances share nothing): an operation on one
instance leaves every other instance as it is, and does to its own what it does alone, its own receive source's turn after it
included (log 6). -/
def Obligations.InstancesAreIndependent : Prop :=
  ∀ (k : Nat) (i : Instr) (all all' : List State), execAt k i all = .next all' →
    all'.length = all.length ∧ (∀ j, j ≠ k → all'[j]? = all[j]?) ∧
    ∀ s, all[k]? = some s → ∃ t, exec i s = .next t ∧ all'[k]? = some t.receiveTurn

/-! ### Numbers, check functions, escaping, markers -/

/-- R64: `num_to_bytes` and `bytes_to_num` are the positional notation in the given order; `num_to_bytes` is undefined, never a
truncation, beyond its width; the rule's two examples. -/
def Obligations.NumToBytesIsPositional : Prop :=
  (∀ v w : Nat,
    (v < 2 ^ (8 * w) → ∃ b : Bytes, numToBytes v w .little = some b ∧ numToBytes v w .big = some b.reverse ∧
      b.length = w ∧ ∀ i, i < w → (b.getD i 0).toNat = v / 2 ^ (8 * i) % 2 ^ 8) ∧
    (2 ^ (8 * w) ≤ v → ∀ e, numToBytes v w e = none)) ∧
  (∀ b : Bytes, bytesToNum b .little = ((List.range b.length).map fun i => (b.getD i 0).toNat * 2 ^ (8 * i)).sum ∧
    bytesToNum b .big = bytesToNum b.reverse .little) ∧
  numToBytes 0x8F89 2 .little = some [0x89, 0x8F] ∧ numToBytes 5 2 .big = some [0x00, 0x05]

/-- From R64: the two directions are inverse to each other. -/
def Obligations.NumbersAndBytesRoundTrip : Prop :=
  (∀ (v w : Nat) (e : Endian) (b : Bytes), numToBytes v w e = some b → bytesToNum b e = v) ∧
  ∀ (b : Bytes) (e : Endian), numToBytes (bytesToNum b e) b.length e = some b

/-- R83 and the table of 95_test_vectors.md section 6: the named check functions over the nine bytes "123456789", and over the two
length-and-body strings R83 names. -/
def Obligations.CheckFunctionsGiveTheListedValues : Prop :=
  (let d : Bytes := [0x31, 0x32, 0x33, 0x34, 0x35, 0x36, 0x37, 0x38, 0x39]
   crcCheck crc16CcittFalse d = 0x29B1 ∧ crcCheck crc16Xmodem d = 0x31C3 ∧ crcCheck crc16Kermit d = 0x2189 ∧
   crcCheck crc16Arc d = 0xBB3D ∧ crcCheck crc8 d = 0xF4 ∧ crcCheck crc32 d = 0xCBF43926 ∧
   sumCheck 1 false d = 0xDD ∧ sumCheck 2 false d = 0x01DD ∧ xor8Check d = 0x31) ∧
  crcCheck crc16CcittFalse [0x01, 0x00, 0x01] = 0xEB8D ∧
  crcCheck crc16CcittFalse [0x05, 0x00, 0x02, 0x00, 0x10, 0x00, 0x00] = 0x8F89

/-- The spec's inference at R85: every member of the three families has single-byte sensitivity, the CRCs with bit 0 of `poly`
set. -/
def Obligations.CheckFamiliesDetectEveryByteChange : Prop :=
  ∀ c : Config, c.wfCheck = true → 1 ≤ c.cw → (∀ p, c.check = .crc p → p.poly % 2 = 1) →
    (∀ id, c.check ≠ .vendor id) → c.PSens

/-- R15: the four reference configurations are well formed under R14, P_SENS included. -/
def Obligations.ReferenceConfigurationsAreWellFormed : Prop :=
  cfgRef.WellFormed ∧ cfgBe.WellFormed ∧ cfgSum8.WellFormed ∧ cfgEsc.WellFormed

/-- R92: with ESC_EN false `escape` is the identity and `take` is plain slicing. -/
def Obligations.WithoutEscapingWireBytesAreLogicalBytes : Prop :=
  ∀ c : Config, c.escEn = false → (∀ x : Bytes, escape c x = x) ∧
    ∀ (buf : Bytes) (i k : Nat), (i + k ≤ buf.length → take c buf i k = .ok ((buf.drop i).take k) (i + k)) ∧
      (buf.length < i + k → take c buf i k = .more)

/-- The spec's inference at R89: `take` inverts `escape` wherever the escaped bytes stand, and accepts only what the encoder can
produce: the wire bytes it passes over are the escaped form of the bytes it returns. -/
def Obligations.TakeInvertsEscape : Prop :=
  ∀ c : Config, c.wf = true →
    (∀ pre x post : Bytes, take c (pre ++ escape c x ++ post) pre.length x.length =
      .ok x (pre.length + (escape c x).length)) ∧
    ∀ (buf : Bytes) (i k : Nat) (x : Bytes) (j : Nat), i ≤ buf.length → take c buf i k = .ok x j →
      x.length = k ∧ i ≤ j ∧ j ≤ buf.length ∧ (buf.drop i).take (j - i) = escape c x

/-- R112: the result of `next_marker` is the first plausible position at or after `start`, or the length of the buffer if there is
none. -/
def Obligations.NextMarkerIsTheFirstPlausiblePosition : Prop :=
  ∀ (c : Config) (buf : Bytes) (start : Nat), start ≤ buf.length →
    let plausible := fun p => ∀ j, j < min c.sof.length (buf.length - p) → buf[p + j]? = c.sof[j]?
    start ≤ nextMarker c buf start ∧ nextMarker c buf start ≤ buf.length ∧
    (nextMarker c buf start < buf.length → plausible (nextMarker c buf start)) ∧
    ∀ p, start ≤ p → p < nextMarker c buf start → ¬ plausible p

/-- R117: `next_marker` does not pass a partial marker at the end of the buffer, and no NoMarker or resync skip consumes it. -/
def Obligations.PartialMarkerAtTheEndIsKept : Prop :=
  ∀ (s : State) (m : Nat), 0 < m → m < s.cfg.sof.length → m ≤ s.rxbuf.length →
    s.rxbuf.drop (s.rxbuf.length - m) = s.cfg.sof.take m →
    (∀ start, start ≤ s.rxbuf.length - m → nextMarker s.cfg s.rxbuf start ≤ s.rxbuf.length - m) ∧
    ∀ (t : State) (r : InvalidReason), exec .decode s = .next t → (decodeFn s.cfg s.rxbuf).1 = .invalid r →
      m ≤ t.rxbuf.length ∧ t.rxbuf.drop (t.rxbuf.length - m) = s.cfg.sof.take m

/-! ### The decoder -/

/-- R70: with the whole marker and the LW length bytes present, whatever follows, the verdict is BadLength if the body length they
give is below OPW or above MAX_BODY, and is not BadLength if it is legal. -/
def Obligations.MalformedLengthIsJudgedAtOnce : Prop :=
  ∀ (c : Config) (lenBytes rest : Bytes), c.wf = true → lenBytes.length = c.lw →
    let b : Int := bytesToNum lenBytes c.endian - c.lenAdj
    let v := (decodeFn c (c.sof ++ escape c lenBytes ++ rest)).1
    ((b < c.opw ∨ (c.maxBody : Int) < b) → v = .invalid .badLength) ∧
    (((c.opw : Int) ≤ b ∧ b ≤ c.maxBody) → v ≠ .invalid .badLength)

/-- R114: the consumed count, outcome by outcome. -/
def Obligations.ConsumedCountsAreAsListed : Prop :=
  ∀ (c : Config) (buf : Bytes) (v : Verdict) (n : Nat), c.wf = true → decodeFn c buf = (v, n) →
    match v with
    | .needMoreBytes => n = 0
    | .frame f => 1 ≤ n ∧ n ≤ buf.length ∧
        (∃ lenBytes chk, numToBytes f.length c.lw c.endian = some lenBytes ∧ numToBytes f.checksum c.cw c.endian = some chk ∧
          n = c.sof.length + (escape c (lenBytes ++ f.payload ++ chk)).length) ∧
        (c.escEn = false → n = c.sof.length + c.lw + f.payload.length + c.cw)
    | .invalid .noMarker => n = nextMarker c buf 0 ∧ 1 ≤ n ∧ n ≤ buf.length
    | .invalid .stalled => False
    | .invalid _ => n = nextMarker c buf 1 ∧ 1 ≤ n ∧ n ≤ buf.length

/-- R25: every Frame the decoder returns, and every one ENCODE serialises, satisfies the invariant of the Frame record; and the
bytes it was read from are exactly its wire form (30_encoding.md R60). -/
def Obligations.FramesSatisfyTheFrameInvariant : Prop :=
  ∀ c : Config, c.wf = true →
    (∀ (buf : Bytes) (f : Frame) (n : Nat), decodeFn c buf = (.frame f, n) →
      FrameValid c f ∧ ∃ lenBytes chk, numToBytes f.length c.lw c.endian = some lenBytes ∧
        numToBytes f.checksum c.cw c.endian = some chk ∧
        buf.take n = c.sof ++ escape c (lenBytes ++ f.payload ++ chk)) ∧
    ∀ (op : Nat) (pl w : Bytes), encodeFn c op pl = some (.bytes w) →
      ∃ f lenBytes chk, FrameValid c f ∧ frameOpcode c f = op ∧ frameMsg c f = pl ∧
        numToBytes f.length c.lw c.endian = some lenBytes ∧ numToBytes f.checksum c.cw c.endian = some chk ∧
        w = c.sof ++ escape c (lenBytes ++ f.payload ++ chk)

/-- The spec's inference at R69: the wire length of a frame with body length `B`. -/
def Obligations.WireLengthIsWithinItsBounds : Prop :=
  ∀ (c : Config) (op : Nat) (pl w : Bytes), c.wf = true → encodeFn c op pl = some (.bytes w) →
    let b := c.opw + pl.length
    c.sof.length + c.lw + b + c.cw ≤ w.length ∧ w.length ≤ c.sof.length + 2 * (c.lw + b + c.cw) ∧
    (c.escEn = false → w.length = c.sof.length + c.lw + b + c.cw)

/-- The spec's law at R105: what ENCODE returns decodes to its frame, whatever bytes follow, and the consumed count is the frame's
own length. -/
def Obligations.EncodedFramesDecodeBack : Prop :=
  ∀ (c : Config) (op : Nat) (pl w : Bytes), c.wf = true → encodeFn c op pl = some (.bytes w) →
    ∃ f, f.sof = c.sof ∧ (f.length : Int) = (c.opw + pl.length : Nat) + c.lenAdj ∧
      numToBytes op c.opw c.endian = some (f.payload.take c.opw) ∧ f.payload.drop c.opw = pl ∧
      (∃ lenBytes, numToBytes f.length c.lw c.endian = some lenBytes ∧ f.checksum = checkFn c (lenBytes ++ f.payload)) ∧
      ∀ t : Bytes, decodeFn c (w ++ t) = (.frame f, w.length)

/-- Decode and encode agree: every well-formed instruction is presented by an input that decodes to it, with every operand, under
every legal configuration. -/
def Obligations.EveryWellFormedInstructionDecodesBack : Prop :=
  ∀ (c : Config) (i : Instr), c.wf = true → i.wf c = true →
    ∃ inp, encodeInstr c i = some inp ∧ decodeInstr c inp = .ok i

/-- From R204 ("everything they do reaches it as the content and pacing of PUSH", log 8): whatever a line input is recognised as,
exactly its bytes arrive. -/
def Obligations.LineBytesArriveUnchanged : Prop :=
  ∀ (s : State) (bytes : Bytes), s.cfg.wf = true →
    ∃ i, decodeInstr s.cfg (.line bytes) = .ok i ∧ exec i s = exec (.push bytes) s

/-- The spec's inference at R116: a Frame verdict, and the reason of a BadLength, BadChecksum or BadEscape verdict, do not change
when bytes are appended; the consumed count of the latter can only grow, and only where it reached the end of the buffer or a
partial marker there. -/
def Obligations.VerdictsAreStableUnderAppending : Prop :=
  ∀ (c : Config) (buf t : Bytes), c.wf = true →
    (∀ f n, decodeFn c buf = (.frame f, n) → decodeFn c (buf ++ t) = (.frame f, n)) ∧
    ∀ r n, r ≠ .noMarker → decodeFn c buf = (.invalid r, n) →
      ∃ n', decodeFn c (buf ++ t) = (.invalid r, n') ∧ n ≤ n' ∧ (n + c.sof.length ≤ buf.length → n' = n)

/-- The spec's law at R119: every proper prefix of a frame gives NeedMoreBytes. -/
def Obligations.ProperPrefixesOfFramesNeedMoreBytes : Prop :=
  ∀ (c : Config) (op : Nat) (pl w : Bytes) (q : Nat), c.wf = true → encodeFn c op pl = some (.bytes w) →
    q < w.length → decodeFn c (w.take q) = (.needMoreBytes, 0)

/-- The spec's law at R120 (DOC0's checksum sensitivity): with escaping off, a frame with one body byte changed gives
InvalidFrame(BadChecksum), with at least one byte consumed. -/
def Obligations.AChangedBodyByteIsDetected : Prop :=
  ∀ (c : Config) (op : Nat) (pl pre post : Bytes) (b b' : Byte), c.WellFormed → c.escEn = false →
    encodeFn c op pl = some (.bytes (pre ++ b :: post)) → b ≠ b' →
    c.sof.length + c.lw ≤ pre.length → c.cw ≤ post.length →
    ∃ n, decodeFn c (pre ++ b' :: post) = (.invalid .badChecksum, n) ∧ 1 ≤ n

/-- The particular case of the spec's law at R121 (DOC0's resync property), generalised to the three reasons, with the mismatch of
the corrupted copy a premise (log 12): between two frames, a stretch that is rejected and holds no plausible marker after its first byte is one RawSegment,
and both frames are returned, at their offsets. -/
def Obligations.TheFrameAfterACorruptedOneIsRecovered : Prop :=
  ∀ (c : Config) (op1 op3 off : Nat) (pl1 pl3 v1 x v3 : Bytes) (r : InvalidReason), c.wf = true →
    encodeFn c op1 pl1 = some (.bytes v1) → encodeFn c op3 pl3 = some (.bytes v3) →
    r ≠ .noMarker → decodeFn c x = (.invalid r, x.length) →
    ∃ f1 f3, frameOpcode c f1 = op1 ∧ frameMsg c f1 = pl1 ∧ frameOpcode c f3 = op3 ∧ frameMsg c f3 = pl3 ∧
      observeFn c (v1 ++ x ++ v3) off = some
        ([.frameEvent off f1 v1, .rawSegment (advanceOffset c off v1.length) x r,
          .frameEvent (advanceOffset c (advanceOffset c off v1.length) x.length) f3 v3], [],
         advanceOffset c (advanceOffset c (advanceOffset c off v1.length) x.length) v3.length)

/-- The spec's inference at R91: with escaping on, and ESC no byte of the marker, a frame cut anywhere after its marker and
followed by another frame is rejected at once as BadEscape, and the skip does not pass the other frame's marker. -/
def Obligations.ACutEscapedFrameIsRejectedAtTheNextMarker : Prop :=
  ∀ (c : Config) (op op2 : Nat) (pl pl2 w w2 : Bytes) (q : Nat), c.wf = true → c.escEn = true → c.esc ∉ c.sof →
    encodeFn c op pl = some (.bytes w) → encodeFn c op2 pl2 = some (.bytes w2) →
    c.sof.length ≤ q → q < w.length →
    ∃ n, decodeFn c (w.take q ++ w2) = (.invalid .badEscape, n) ∧ 1 ≤ n ∧ n ≤ q

/-- R46, R205: where the verdict is NeedMoreBytes, DECODE and OBSERVE change nothing but the list of returned values (RXOFF within
its width). -/
def Obligations.NeedMoreBytesChangesNothing : Prop :=
  ∀ s : State, (decodeFn s.cfg s.rxbuf).1 = .needMoreBytes → s.rxoff < 2 ^ s.cfg.offw →
    exec .decode s = .next { s with returned := s.returned ++ [.decoded .needMoreBytes 0 []] } ∧
    exec .observe s = .next { s with returned := s.returned ++ [.observed []] }

/-- The spec's inference at R118: at most as many DECODEs as there are bytes lead to NeedMoreBytes. The held bytes count with those
of RXBUF, since a run delivers them after a DECODE that makes room (log 6); with nothing held the bound is `len(RXBUF)`. -/
def Obligations.DecodingReachesNeedMoreBytes : Prop :=
  ∀ s : State, s.cfg.wf = true →
    ∃ k t, k ≤ s.rxbuf.length + s.rxHeld.flatten.length ∧ runInstrs (List.replicate k .decode) s = .next t ∧ t.Drained

/-- The spec's inference at R141: one OBSERVE has the effect of DRAIN on the state and returns the same information, each result
with the offset it was taken at. No step of another agent falls between the DECODEs of the DRAIN (log 6). -/
def Obligations.ObserveIsDrain : Prop :=
  ∀ s : State, s.cfg.wf = true → s.rxoff < 2 ^ s.cfg.offw →
    ∃ t u rs es, drain s = .next t ∧ t.returned = s.returned ++ rs ∧ t.Drained ∧
      exec .observe s = .next u ∧ u.returned = s.returned ++ [.observed es] ∧
      t = { u with returned := t.returned } ∧ eventLog s.cfg s.rxoff rs = es

/-- From R142: the events of an OBSERVE are in stream order, their byte ranges adjacent, and they cover exactly the bytes
consumed. -/
def Obligations.ObservedEventsCoverTheConsumedBytes : Prop :=
  ∀ (s t : State) (es : List Event), exec .observe s = .next t → t.returned = s.returned ++ [.observed es] →
    (es.map eventBytes).flatten ++ t.rxbuf = s.rxbuf ∧
    (s.rxoff < 2 ^ s.cfg.offw →
      ∀ (front back : List Event) (e : Event), es = front ++ e :: back →
        (match e with | .frameEvent o _ _ => o | .rawSegment o _ _ => o) =
          advanceOffset s.cfg s.rxoff ((front.map eventBytes).flatten).length)

/-- The spec's inference at R29: exactly one row of the phase table applies, and DPHASE is that row; NeedMoreBytes is the verdict
exactly in IDLE, MARK, LEN, BODY and CHECK. -/
def Obligations.ExactlyOnePhaseRowApplies : Prop :=
  ∀ (c : Config) (buf : Bytes), c.wf = true →
    (∀ p, phaseRow c buf p ↔ p = dphase c buf) ∧
    ((decodeFn c buf).1 = .needMoreBytes ↔ dphase c buf ∈ [Phase.idle, .mark, .len, .body, .check])

/-- The transition table of R122, row by row. PUSH appends (PushAppendsItsBytes), so a row whose event is a PUSH is a clause about
the buffer after it; the phase before it is the row of `phaseRow` the shorter buffer meets. `t` is whatever more came. An escape
is illegal where a member of ESC_SET other than ESC arrives with no ESC waiting for its partner, or a partner arrives that no
member of ESC_SET is sent as (30_encoding.md R94(c)). -/
def Obligations.PhasesMoveAsTheTableSays : Prop :=
  ∀ c : Config, c.wf = true →
    let bodyLength := fun lenBytes : Bytes => (bytesToNum lenBytes c.endian : Int) - c.lenAdj
    -- IDLE; to HUNT; to MARK; MARK to HUNT
    dphase c [] = .idle ∧
    (∀ b bs, c.sof.head? ≠ some b → dphase c (b :: bs) = .hunt) ∧
    (∀ m, 0 < m → m < c.sof.length → dphase c (c.sof.take m) = .mark) ∧
    (∀ m b t, 0 < m → m < c.sof.length → c.sof[m]? ≠ some b → dphase c (c.sof.take m ++ b :: t) = .hunt) ∧
    -- IDLE, MARK to LEN or further, on the completed marker
    dphase c c.sof = .len ∧
    (∀ t, dphase c (c.sof ++ t) ∈ [Phase.len, .body, .check, .ready]) ∧
    -- HUNT is left by one DECODE
    (∀ buf, dphase c buf = .hunt → (decodeFn c buf).1 = .invalid .noMarker ∧
      dphase c (buf.drop (decodeFn c buf).2) ≠ .hunt) ∧
    -- LEN to BODY or further, on a legal length; to READY on a malformed one
    (∀ lenBytes t : Bytes, lenBytes.length = c.lw → c.opw ≤ bodyLength lenBytes → bodyLength lenBytes ≤ c.maxBody →
      dphase c (c.sof ++ escape c lenBytes) = .body ∧
      dphase c (c.sof ++ escape c lenBytes ++ t) ∈ [Phase.body, .check, .ready]) ∧
    (∀ lenBytes t : Bytes, lenBytes.length = c.lw → (bodyLength lenBytes < c.opw ∨ c.maxBody < bodyLength lenBytes) →
      dphase c (c.sof ++ escape c lenBytes ++ t) = .ready ∧
      (decodeFn c (c.sof ++ escape c lenBytes ++ t)).1 = .invalid .badLength) ∧
    -- BODY to CHECK or further, on the completed body; CHECK to READY, on the completed check field
    (∀ lenBytes body t : Bytes, lenBytes.length = c.lw → bodyLength lenBytes = body.length →
      c.opw ≤ body.length → body.length ≤ c.maxBody →
      dphase c (c.sof ++ escape c (lenBytes ++ body)) = .check ∧
      dphase c (c.sof ++ escape c (lenBytes ++ body) ++ t) ∈ [Phase.check, .ready]) ∧
    (∀ lenBytes body chk t : Bytes, lenBytes.length = c.lw → bodyLength lenBytes = body.length →
      c.opw ≤ body.length → body.length ≤ c.maxBody → chk.length = c.cw →
      dphase c (c.sof ++ escape c (lenBytes ++ body ++ chk) ++ t) = .ready ∧
      ((∃ f, (decodeFn c (c.sof ++ escape c (lenBytes ++ body ++ chk) ++ t)).1 = .frame f) ∨
        (decodeFn c (c.sof ++ escape c (lenBytes ++ body ++ chk) ++ t)).1 = .invalid .badChecksum)) ∧
    -- LEN, BODY, CHECK to READY, on an illegal escape
    (∀ (buf t : Bytes) (b : Byte), c.escEn = true → dphase c buf ∈ [Phase.len, .body, .check] →
      (((buf.drop c.sof.length).getLast? ≠ some c.esc ∧ b ≠ c.esc ∧ b ∈ c.escSet) ∨
        ((buf.drop c.sof.length).getLast? = some c.esc ∧ b ^^^ c.escXor ∉ c.escSet)) →
      dphase c (buf ++ b :: t) = .ready ∧ (decodeFn c (buf ++ b :: t)).1 = .invalid .badEscape) ∧
    -- READY under DECODE: the verdict is returned, and the phase is that of the remaining bytes
    (∀ s u : State, s.cfg = c → dphase c s.rxbuf = .ready → exec .decode s = .next u →
      ∃ v n, u.returned = s.returned ++ [.decoded v n (s.rxbuf.take n)] ∧ v ≠ .needMoreBytes ∧ v ≠ .invalid .noMarker ∧
        1 ≤ n ∧ n ≤ s.rxbuf.length ∧ dphase u.cfg u.rxbuf = dphase c (s.rxbuf.drop n)) ∧
    -- MARK, LEN, BODY, CHECK under TIMEOUT: the stalled candidate is dropped
    (∀ s u : State, s.cfg = c → dphase c s.rxbuf ∈ [Phase.mark, .len, .body, .check] → exec .timeout s = .next u →
      ∃ n, u.returned = s.returned ++ [.timedOut (.invalid .stalled) n (s.rxbuf.take n)] ∧ 1 ≤ n ∧ n ≤ s.rxbuf.length ∧
        dphase u.cfg u.rxbuf = dphase c (s.rxbuf.drop n)) ∧
    -- any phase under RESET
    ∀ s : State, s.cfg = c → ∃ u, exec .reset s = .next u ∧ dphase u.cfg u.rxbuf = .idle

/-- The spec's inference at R195, for both settings of ESC_EN: a buffer whose verdict is NeedMoreBytes is shorter than a maximal
frame; so a bounded buffer in that state always takes one more byte (R14(g)). -/
def Obligations.AStalledBufferIsShorterThanAMaximalFrame : Prop :=
  ∀ s : State, s.cfg.wf = true → s.Drained →
    s.rxbuf.length < s.cfg.maxWire ∧ (s.rxHeld = [] → ∀ b : Byte, s.pushEnabled [b] = true)

/-! ### Runs -/

/-- The invariant holds at reset. -/
def Obligations.InvariantHoldsAtReset : Prop := State.reset.Inv

/-- Every step keeps the invariant: a legal configuration, RXOFF within OFFW bits (R24), RXBUF within RXCAP (R23, R47), nothing
held that could be delivered (log 6), every Frame handed out valid (R25). -/
def Obligations.EveryStepKeepsTheInvariant : Prop :=
  ∀ s s' : State, s.Inv → Sys2Proof.Machine.step s = .next s' → s'.Inv

/-- From R48 and R24: no byte is lost, duplicated or reordered. Over any run of operations without RESET, the bytes handed back,
then RXBUF, then what the receive source holds, are what was there before followed by what arrived; and RXOFF has advanced by
the number of bytes handed back. -/
def Obligations.NoByteIsLostDuplicatedOrReordered : Prop :=
  ∀ (ops : List Instr) (s t : State), (∀ i ∈ ops, i ≠ .reset) → s.rxoff < 2 ^ s.cfg.offw →
    runInstrs ops s = .next t →
    ∃ rs, t.returned = s.returned ++ rs ∧
      rawLog rs ++ t.rxbuf ++ t.rxHeld.flatten =
        s.rxbuf ++ s.rxHeld.flatten ++ (ops.map (arriving s.cfg)).flatten ∧
      t.rxoff = (s.rxoff + (rawLog rs).length) % 2 ^ s.cfg.offw

/-- From R47 (the order is the model's reading, log 6): the receive source's turn delivers held bytes in arrival order, loses
none, changes nothing else, and stops only before a PUSH that is not enabled. -/
def Obligations.HeldBytesAreDeliveredInOrder : Prop :=
  ∀ s : State,
    s.receiveTurn.rxbuf ++ s.receiveTurn.rxHeld.flatten = s.rxbuf ++ s.rxHeld.flatten ∧
    (∃ n, s.receiveTurn.rxHeld = s.rxHeld.drop n) ∧ heldBlocked s.receiveTurn ∧
    s.receiveTurn = { s with rxbuf := s.receiveTurn.rxbuf, rxHeld := s.receiveTurn.rxHeld }

/-- R49: the transmit stream is the ENCODE results in the order in which the ENCODEs were invoked. -/
def Obligations.TransmitStreamIsInEncodeOrder : Prop :=
  ∀ (ops : List Instr) (s t : State), runInstrs ops s = .next t →
    txStream t.returned = txStream s.returned ++ ops.filterMap fun i =>
      match i with
      | .encode op pl => frameWire s.cfg op pl
      | _ => none

/-- The spec's law at R44, fragmentation independence, for bounded and unbounded RXCAP: two runs without TIMEOUT and RESET from one
state that bring the same stream and are over (R205) return the same frames at the same stream offsets and leave the same RXBUF
and the same RXOFF, however the bytes were cut, whenever DECODE and OBSERVE were invoked, and whichever PUSHes had to wait
(delivered as log 6 says). ENCODEs may stand between, and bytes may arrive as wire patterns (log 8). -/
def Obligations.FramesDoNotDependOnFragmentation : Prop :=
  ∀ (s t1 t2 : State) (ops1 ops2 : List Instr) (stream : Bytes), s.cfg.wf = true → s.rxoff < 2 ^ s.cfg.offw →
    (∀ i ∈ ops1 ++ ops2, i ≠ .timeout ∧ i ≠ .reset) → RunOver stream ops1 s t1 → RunOver stream ops2 s t2 →
    ∃ rs1 rs2, t1.returned = s.returned ++ rs1 ∧ t2.returned = s.returned ++ rs2 ∧
      eventFrames (eventLog s.cfg s.rxoff rs1) = eventFrames (eventLog s.cfg s.rxoff rs2) ∧
      t1.rxbuf = t2.rxbuf ∧ t1.rxoff = t2.rxoff

/-- From R205: when a run is over, a step that is no TIMEOUT and no RESET changes neither RXBUF nor RXOFF, and the run stays over
(the steps to take are the model's inputs, log 5; nothing is held, log 6). -/
def Obligations.AnOverRunChangesOnlyByTimeoutOrReset : Prop :=
  ∀ s t : State, s.Inv → s.Over → step s = .next t →
    (∀ inp rest, s.inputs = inp :: rest →
      decodeInstr s.cfg inp ≠ .ok .timeout ∧ decodeInstr s.cfg inp ≠ .ok .reset) →
    t.rxbuf = s.rxbuf ∧ t.rxoff = s.rxoff ∧ t.Over

/-- From R205, "The block never halts of itself": an infinite run of well-formed operations, from any state under a legal
configuration, goes on at every length, each operation performed on what the earlier ones left. (A PUSH that is not enabled goes
on by waiting, log 6.) -/
def Obligations.InfiniteRunsNeverHalt : Prop :=
  ∀ (ops : Nat → Instr) (s : State), s.cfg.wf = true → (∀ n, (ops n).wf s.cfg = true) →
    ∀ n, ∃ t u, runPrefix ops n s = .next t ∧ perform (ops n) t = .next u ∧ runPrefix ops (n + 1) s = .next u

/-- Delivery through the machine's own steps: a frame on the line, then DECODE, returns that frame to the client and leaves RXBUF
empty (R105 with R60, R111; log 5 and log 8 for the inputs). -/
def Obligations.AFrameOnTheLineIsReturnedByTheNextDecode : Prop :=
  ∀ (s : State) (op : Nat) (pl w : Bytes) (rest : List Input), s.cfg.wf = true → s.rxHeld = [] → s.rxbuf = [] →
    encodeFn s.cfg op pl = some (.bytes w) → s.inputs = .line w :: .command 2 0 [] :: rest →
    ∃ t f, Host.Core.run Sys2Proof.core 2 s = .next t ∧ frameOpcode s.cfg f = op ∧ frameMsg s.cfg f = pl ∧
      t = { s with rxoff := (s.rxoff + w.length) % 2 ^ s.cfg.offw, inputs := rest,
                   returned := s.returned ++ [.decoded (.frame f) w.length w] }
end

