-- ==== Sys2Proof/Laws/Check.lean ====
section
/-!
SUPPORT. The eight-bit sum of CFG_SUM8 has single-byte sensitivity (30_encoding.md R85): the witness that a well-formed
configuration exists.
-/

namespace Sys2Proof

theorem byteSum_append (x y : Bytes) : byteSum (x ++ y) = byteSum x + byteSum y := by
  induction x with
  | nil => simp [byteSum]
  | cons b bs ih => simp [byteSum, ih, Nat.add_assoc]

theorem cfgSum8_psens : cfgSum8.PSens := by
  rintro x y ⟨pre, post, b, b', hb, rfl, rfl⟩ h
  refine hb (BitVec.eq_of_toNat_eq ?_)
  have h1 := b.isLt
  have h2 := b'.isLt
  simp only [checkFn, cfgSum8, sumCheck, byteSum_append, byteSum] at h
  norm_num at h
  omega

theorem cfgSum8_wellFormed : cfgSum8.WellFormed := ⟨by decide, cfgSum8_psens⟩

end Sys2Proof
end

