-- ==== Sys2Proof/Laws/Config.lean ====
section
/-!
SUPPORT. The clauses of a well-formed configuration (00_scope.md R14) as propositions.
-/

namespace Sys2Proof

/-- Everything `Config.wf` says but for the shape of CHECK. -/
theorem wf_clauses {c : Config} (h : c.wf = true) :
    1 ≤ c.sof.length ∧ 1 ≤ c.lw ∧ c.lw ≤ 4 ∧ 1 ≤ c.opw ∧ c.opw ≤ 4 ∧ 1 ≤ c.cw ∧ c.opw ≤ c.maxBody ∧
    0 ≤ (c.opw : Int) + c.lenAdj ∧ (c.maxBody : Int) + c.lenAdj ≤ 2 ^ (8 * c.lw) - 1 ∧ 1 ≤ c.offw := by
  simp only [Config.wf, Config.wfWidths, Config.wfBody, Config.wfLength, Config.wfOffset, Bool.and_eq_true,
    decide_eq_true_eq] at h
  omega

theorem wf_check {c : Config} (h : c.wf = true) : c.wfCheck = true := by
  simp only [Config.wf, Bool.and_eq_true] at h
  exact h.1.1.1.2

/-- R14(f), with escaping on. -/
theorem wf_escape {c : Config} (h : c.wf = true) (he : c.escEn = true) :
    c.esc ∈ c.escSet ∧ (∀ b ∈ c.sof, b ∈ c.escSet) ∧ c.escXor ≠ 0 ∧ ∀ b ∈ c.escSet, b ^^^ c.escXor ∉ c.escSet := by
  simp only [Config.wf, Config.wfEscape, he, Bool.not_true, Bool.false_or, Bool.and_eq_true, decide_eq_true_eq,
    List.all_eq_true] at h
  obtain ⟨⟨⟨-, ⟨⟨⟨h1, h2⟩, h3⟩, h4⟩⟩, -⟩, -⟩ := h
  exact ⟨h1, h2, h3, h4⟩

/-- R14(g), with a bounded buffer. -/
theorem wf_cap {c : Config} {cap : Nat} (h : c.wf = true) (hc : c.rxcap = some cap) : c.maxWire ≤ cap := by
  simp only [Config.wf, Config.wfCap, hc, Bool.and_eq_true, decide_eq_true_eq] at h
  exact h.1.2

end Sys2Proof
end

