-- ==== Sys2Proof/Laws/State.lean ====
section
/-!
SUPPORT. One lemma per field per update of State, true by rfl: no later proof unfolds a record update.
-/

namespace Sys2Proof.Machine

variable (s : State) (r : Result) (n : Nat)

@[simp] theorem ret_cfg : (s.ret r).cfg = s.cfg := rfl
@[simp] theorem ret_rxbuf : (s.ret r).rxbuf = s.rxbuf := rfl
@[simp] theorem ret_rxoff : (s.ret r).rxoff = s.rxoff := rfl
@[simp] theorem ret_inputs : (s.ret r).inputs = s.inputs := rfl
@[simp] theorem ret_rxHeld : (s.ret r).rxHeld = s.rxHeld := rfl
@[simp] theorem ret_returned : (s.ret r).returned = s.returned ++ [r] := rfl

@[simp] theorem consume_cfg : (s.consume n).cfg = s.cfg := rfl
@[simp] theorem consume_rxbuf : (s.consume n).rxbuf = s.rxbuf.drop n := rfl
@[simp] theorem consume_rxoff : (s.consume n).rxoff = advanceOffset s.cfg s.rxoff n := rfl
@[simp] theorem consume_inputs : (s.consume n).inputs = s.inputs := rfl
@[simp] theorem consume_rxHeld : (s.consume n).rxHeld = s.rxHeld := rfl
@[simp] theorem consume_returned : (s.consume n).returned = s.returned := rfl

@[simp] theorem receiveTurn_cfg : s.receiveTurn.cfg = s.cfg := rfl
@[simp] theorem receiveTurn_rxbuf : s.receiveTurn.rxbuf = (deliverHeld s.cfg.rxcap s.rxbuf s.rxHeld).1 := rfl
@[simp] theorem receiveTurn_rxoff : s.receiveTurn.rxoff = s.rxoff := rfl
@[simp] theorem receiveTurn_inputs : s.receiveTurn.inputs = s.inputs := rfl
@[simp] theorem receiveTurn_rxHeld : s.receiveTurn.rxHeld = (deliverHeld s.cfg.rxcap s.rxbuf s.rxHeld).2 := rfl
@[simp] theorem receiveTurn_returned : s.receiveTurn.returned = s.returned := rfl

@[simp] theorem reset_cfg : State.reset.cfg = cfgRef := rfl
@[simp] theorem reset_rxbuf : State.reset.rxbuf = [] := rfl
@[simp] theorem reset_rxoff : State.reset.rxoff = 0 := rfl
@[simp] theorem reset_inputs : State.reset.inputs = [] := rfl
@[simp] theorem reset_rxHeld : State.reset.rxHeld = [] := rfl
@[simp] theorem reset_returned : State.reset.returned = [] := rfl

end Sys2Proof.Machine
end

