-- ==== Sys2Proof/Laws/Ops.lean ====
section
/-!
SUPPORT. For each shared operation over the state, and for exec and step, what it can do.
-/

namespace Sys2Proof.Machine

@[simp] theorem fits_none (n : Nat) : fits none n = true := rfl
@[simp] theorem fits_some (k n : Nat) : fits (some k) n = decide (n ≤ k) := rfl

theorem receive_enabled {s : State} {b : Bytes} (h : s.pushEnabled b = true) :
    s.receive b = { s with rxbuf := s.rxbuf ++ b } := by simp [State.receive, h]

theorem receive_held {s : State} {b : Bytes} (h : s.pushEnabled b = false) :
    s.receive b = { s with rxHeld := s.rxHeld ++ [b] } := by simp [State.receive, h]

/-- Everything `State.receive` can do. -/
theorem receive_cases (s : State) (b : Bytes) :
    (s.pushEnabled b = true ∧ s.receive b = { s with rxbuf := s.rxbuf ++ b }) ∨
    (s.pushEnabled b = false ∧ s.receive b = { s with rxHeld := s.rxHeld ++ [b] }) := by
  cases h : s.pushEnabled b
  · exact .inr ⟨rfl, receive_held h⟩
  · exact .inl ⟨rfl, receive_enabled h⟩

@[simp] theorem receive_cfg (s : State) (b : Bytes) : (s.receive b).cfg = s.cfg := by
  obtain ⟨-, h⟩ | ⟨-, h⟩ := receive_cases s b <;> rw [h]
@[simp] theorem receive_rxoff (s : State) (b : Bytes) : (s.receive b).rxoff = s.rxoff := by
  obtain ⟨-, h⟩ | ⟨-, h⟩ := receive_cases s b <;> rw [h]
@[simp] theorem receive_inputs (s : State) (b : Bytes) : (s.receive b).inputs = s.inputs := by
  obtain ⟨-, h⟩ | ⟨-, h⟩ := receive_cases s b <;> rw [h]
@[simp] theorem receive_returned (s : State) (b : Bytes) : (s.receive b).returned = s.returned := by
  obtain ⟨-, h⟩ | ⟨-, h⟩ := receive_cases s b <;> rw [h]

/-- A receive loses nothing, whether the PUSH was enabled or its bytes are held. -/
theorem receive_bytes (s : State) (b : Bytes) :
    (s.receive b).rxbuf ++ (s.receive b).rxHeld.flatten = s.rxbuf ++ s.rxHeld.flatten ++ b := by
  obtain ⟨h, e⟩ | ⟨-, e⟩ := receive_cases s b
  · rw [e]
    simp only [State.pushEnabled, Bool.and_eq_true, List.isEmpty_iff] at h
    simp [h.1]
  · rw [e]; simp

@[simp] theorem deliverHeld_nil (cap : Option Nat) (buf : Bytes) : deliverHeld cap buf [] = (buf, []) := rfl

/-- With nothing held the receive source's turn changes nothing. -/
theorem receiveTurn_of_nothing_held {s : State} (h : s.rxHeld = []) : s.receiveTurn = s := by
  obtain ⟨cfg, rxbuf, rxoff, inputs, rxHeld, returned⟩ := s
  subst h
  rfl

/-! ### The arms of exec -/

theorem exec_encode (op : Nat) (pl : Bytes) (s : State) : exec (.encode op pl) s =
    match encodeFn s.cfg op pl with
    | some r => .next (s.ret (.encoded r))
    | none => .fault .numberUnrepresentable := rfl

theorem exec_push (b : Bytes) (s : State) : exec (.push b) s = .next (s.receive b) := rfl

theorem exec_decode (s : State) : exec .decode s = .next ((s.consume (decodeFn s.cfg s.rxbuf).2).ret
    (.decoded (decodeFn s.cfg s.rxbuf).1 (decodeFn s.cfg s.rxbuf).2 (s.rxbuf.take (decodeFn s.cfg s.rxbuf).2))) := rfl

theorem exec_observe (s : State) : exec .observe s =
    match observeFn s.cfg s.rxbuf s.rxoff with
    | some (events, buf, off) => .next (State.ret { s with rxbuf := buf, rxoff := off } (.observed events))
    | none => .fault .observeDiverges := rfl

theorem exec_reset (s : State) : exec .reset s = .next { s with rxbuf := [], rxoff := 0 } := rfl

/-- Everything TIMEOUT can do. -/
theorem exec_timeout_cases (s : State) :
    ((s.rxbuf = [] ∨ decodeFn s.cfg s.rxbuf ≠ (.needMoreBytes, 0)) ∧
      exec .timeout s = .next (s.ret (.timedOut .noAction 0 []))) ∨
    (s.rxbuf ≠ [] ∧ decodeFn s.cfg s.rxbuf = (.needMoreBytes, 0) ∧
      exec .timeout s = .next ((s.consume (nextMarker s.cfg s.rxbuf 1)).ret
        (.timedOut (.invalid .stalled) (nextMarker s.cfg s.rxbuf 1) (s.rxbuf.take (nextMarker s.cfg s.rxbuf 1))))) := by
  simp only [exec, execTimeout]
  split
  · exact .inl ⟨.inl (List.length_eq_zero_iff.mp ‹_›), rfl⟩
  · split
    · exact .inl ⟨.inr ‹_›, rfl⟩
    · exact .inr ⟨fun h => ‹¬ s.rxbuf.length = 0› (by simp [h]), not_not.mp ‹_›, rfl⟩

/-! ### Runs -/

/-- Everything an operation of a run that answers a next state can be. -/
theorem perform_next_iff {i : Instr} {s t : State} :
    perform i s = .next t ↔ ∃ u, exec i s = .next u ∧ t = u.receiveTurn := by
  unfold perform
  cases h : exec i s with
  | next u => simp [afterInstr, eq_comm]
  | fault f => simp [afterInstr]
  | refused r => simp [afterInstr]

@[simp] theorem runInstrs_nil (s : State) : runInstrs [] s = .next s := rfl

/-- A run that answers a next state performs its first operation and then the rest. -/
theorem runInstrs_cons_next_iff {i : Instr} {is : List Instr} {s t : State} :
    runInstrs (i :: is) s = .next t ↔ ∃ u, perform i s = .next u ∧ runInstrs is u = .next t := by
  simp only [runInstrs]
  cases h : perform i s <;> simp

@[simp] theorem runPrefix_zero (ops : Nat → Instr) (s : State) : runPrefix ops 0 s = .next s := rfl

/-! ### step -/

theorem step_idle {s : State} (h : s.inputs = []) : step s = .next s.receiveTurn := by
  simp [step, h]

/-- A step on an input that decodes performs its instruction. -/
theorem step_performs {s : State} {inp : Input} {rest : List Input} {i : Instr} (h : s.inputs = inp :: rest)
    (hd : decodeInstr s.cfg inp = .ok i) : step s = perform i { s with inputs := rest } := by
  simp [step, perform, h, hd]

theorem step_decoded {s : State} {inp : Input} {rest : List Input} {i : Instr} (h : s.inputs = inp :: rest)
    (hd : decodeInstr s.cfg inp = .ok i) : step s = afterInstr (exec i { s with inputs := rest }) := by
  simp [step, h, hd]

/-- Everything a step that answers a next state can be. -/
theorem step_next_cases {s s' : State} (h : step s = .next s') :
    (s.inputs = [] ∧ s' = s.receiveTurn) ∨
    ∃ inp rest i t, s.inputs = inp :: rest ∧ decodeInstr s.cfg inp = .ok i ∧
      exec i { s with inputs := rest } = .next t ∧ s' = t.receiveTurn := by
  unfold step at h
  split at h
  · exact .inl ⟨by assumption, by injection h with h; exact h.symm⟩
  · split at h
    · rename_i inp rest hi _ i hd
      cases he : exec i { s with inputs := rest } with
      | next t =>
        rw [he] at h
        injection h with h
        exact .inr ⟨inp, rest, i, t, hi, hd, he, h.symm⟩
      | fault f => rw [he] at h; cases h
      | refused r => rw [he] at h; cases h
    · cases h

end Sys2Proof.Machine
end

