-- ==== Sys2Proof/Laws/PerInstr.lean ====
section
/-!
SUPPORT. Statements made per instruction, one lemma per constructor of Instr.
-/

namespace Sys2Proof.Laws

/-- The select code of a command (30_encoding.md R93, R94(a)); none for the two wire patterns. -/
def selectOf : Instr → Option (BitVec 3)
  | .encode _ _ => some 0
  | .push _ => some 1
  | .decode => some 2
  | .observe => some 3
  | .timeout => some 4
  | .reset => some 5
  | .reserved6 => some 6
  | .reserved7 => some 7
  | .frame _ _ => none
  | .escPair _ => none

/-- A command is presented under the select code R93 tabulates for it, and its presentation decodes to it, with every operand;
a wire pattern has no select code. -/
def SelectCode.Statement (i : Instr) : Prop :=
  ∀ k, selectOf i = some k → ∀ c, ∃ op data,
    encodeInstr c i = some (.command k op data) ∧ decodeInstr c (.command k op data) = .ok i

theorem SelectCode.encode (op : Nat) (pl : Bytes) : SelectCode.Statement (.encode op pl) := by
  rintro k ⟨⟩ c; exact ⟨_, _, rfl, rfl⟩
theorem SelectCode.push (b : Bytes) : SelectCode.Statement (.push b) := by
  rintro k ⟨⟩ c; exact ⟨_, _, rfl, rfl⟩
theorem SelectCode.decode : SelectCode.Statement .decode := by
  rintro k ⟨⟩ c; exact ⟨_, _, rfl, rfl⟩
theorem SelectCode.observe : SelectCode.Statement .observe := by
  rintro k ⟨⟩ c; exact ⟨_, _, rfl, rfl⟩
theorem SelectCode.timeout : SelectCode.Statement .timeout := by
  rintro k ⟨⟩ c; exact ⟨_, _, rfl, rfl⟩
theorem SelectCode.reset : SelectCode.Statement .reset := by
  rintro k ⟨⟩ c; exact ⟨_, _, rfl, rfl⟩
theorem SelectCode.reserved6 : SelectCode.Statement .reserved6 := by
  rintro k ⟨⟩ c; exact ⟨_, _, rfl, rfl⟩
theorem SelectCode.reserved7 : SelectCode.Statement .reserved7 := by
  rintro k ⟨⟩ c; exact ⟨_, _, rfl, rfl⟩
theorem SelectCode.frame (op : Nat) (msg : Bytes) : SelectCode.Statement (.frame op msg) := by
  intro k h; cases h
theorem SelectCode.escPair (x : Byte) : SelectCode.Statement (.escPair x) := by
  intro k h; cases h

end Sys2Proof.Laws
end

