-- ==== Sys2Proof/Laws/Wire.lean ====
section
/-!
SUPPORT. The pure core: for each function, once, everything it can answer.
-/

namespace Sys2Proof

@[simp] theorem escape_off {c : Config} (h : c.escEn = false) (x : Bytes) : escape c x = x := by simp [escape, h]

@[simp] theorem escape_on {c : Config} (h : c.escEn = true) (x : Bytes) : escape c x = escapeAll c x := by
  simp [escape, h]

@[simp] theorem escapeAll_nil (c : Config) : escapeAll c [] = [] := rfl

@[simp] theorem escapeAll_cons (c : Config) (b : Byte) (bs : Bytes) :
    escapeAll c (b :: bs) = escapeByte c b ++ escapeAll c bs := rfl

theorem escapeAll_append (c : Config) (x y : Bytes) : escapeAll c (x ++ y) = escapeAll c x ++ escapeAll c y := by
  induction x with
  | nil => rfl
  | cons b bs ih => simp [ih]

theorem escape_append (c : Config) (x y : Bytes) : escape c (x ++ y) = escape c x ++ escape c y := by
  cases h : c.escEn <;> simp [h, escapeAll_append]

@[simp] theorem cons_ok (v : Byte) (n : Nat) (out : Bytes) (j : Nat) :
    (Take.ok out j).cons v n = .ok (v :: out) (n + j) := rfl
@[simp] theorem cons_more (v : Byte) (n : Nat) : Take.more.cons v n = .more := rfl
@[simp] theorem cons_bad (v : Byte) (n : Nat) : Take.bad.cons v n = .bad := rfl

@[simp] theorem unescape_zero (c : Config) (l : Bytes) : unescape c 0 l = .ok [] 0 := by cases l <;> rfl

@[simp] theorem unescape_nil (c : Config) (k : Nat) : unescape c (k + 1) [] = .more := rfl

@[simp] theorem leBytes_length (v w : Nat) : (leBytes v w).length = w := by
  induction w generalizing v with
  | zero => rfl
  | succ w ih => simp [leBytes, ih]

@[simp] theorem agrees_nil (l : Bytes) : agrees [] l = true := rfl

@[simp] theorem agrees_cons (a b : Byte) (as bs : Bytes) : agrees (a :: as) (b :: bs) = (a == b && agrees as bs) := rfl

theorem markerScan_le (sof l : Bytes) : markerScan sof l ≤ l.length := by
  induction l with
  | nil => simp [markerScan]
  | cons b bs ih => simp only [markerScan, List.length_cons]; split <;> omega

/-- The skip of a resync takes at least one byte of a buffer that is not empty, and no more than all. -/
theorem nextMarker_one_bounds (c : Config) {buf : Bytes} (h : buf ≠ []) :
    1 ≤ nextMarker c buf 1 ∧ nextMarker c buf 1 ≤ buf.length := by
  have hn : 0 < buf.length := List.length_pos_iff.mpr h
  have hs := markerScan_le c.sof (buf.drop 1)
  simp only [List.length_drop] at hs
  unfold nextMarker
  split <;> omega

/-- Everything `encodeFn` can answer. -/
theorem encodeFn_cases (c : Config) (op : Nat) (pl : Bytes) :
    (2 ^ (8 * c.opw) ≤ op ∧ encodeFn c op pl = some (.refused .opcodeRange)) ∨
    (op < 2 ^ (8 * c.opw) ∧ c.maxBody < c.opw + pl.length ∧ encodeFn c op pl = some (.refused .bodyTooLong)) ∨
    (op < 2 ^ (8 * c.opw) ∧ c.opw + pl.length ≤ c.maxBody ∧
      ((∃ opc lenBytes chk, numToBytes op c.opw c.endian = some opc ∧ lengthField c (c.opw + pl.length) = some lenBytes ∧
          numToBytes (checkFn c (lenBytes ++ (opc ++ pl))) c.cw c.endian = some chk ∧
          encodeFn c op pl = some (.bytes (c.sof ++ escape c (lenBytes ++ (opc ++ pl) ++ chk)))) ∨
        encodeFn c op pl = none)) := by
  unfold encodeFn
  split
  · left; exact ⟨by omega, rfl⟩
  · split
    · right; left; exact ⟨by omega, by omega, rfl⟩
    · right; right
      refine ⟨by omega, by omega, ?_⟩
      split
      · split
        · left; exact ⟨_, _, _, by assumption, by assumption, by assumption, rfl⟩
        · right; rfl
      · right; rfl

/-- One iteration of the OBSERVE loop. -/
theorem observeLoop_succ (c : Config) (fuel : Nat) (buf : Bytes) (off : Nat) :
    observeLoop c (fuel + 1) buf off =
      match eventOf off (buf.take (decodeFn c buf).2) (decodeFn c buf).1 with
      | none => some ([], buf, off)
      | some e =>
        match observeLoop c fuel (buf.drop (decodeFn c buf).2) (advanceOffset c off (decodeFn c buf).2) with
        | some (es, buf', off') => some (e :: es, buf', off')
        | none => none := rfl

/-- Everything `decodeFn` can answer, with the step of 41_decode.md R113 that answers it. -/
theorem decodeFn_cases (c : Config) (buf : Bytes) :
    (buf = [] ∧ decodeFn c buf = (.needMoreBytes, 0)) ∨
    (0 < nextMarker c buf 0 ∧ buf ≠ [] ∧ decodeFn c buf = (.invalid .noMarker, nextMarker c buf 0)) ∨
    (buf ≠ [] ∧ nextMarker c buf 0 = 0 ∧ buf.length < c.sof.length ∧ decodeFn c buf = (.needMoreBytes, 0)) ∨
    (buf ≠ [] ∧ nextMarker c buf 0 = 0 ∧ c.sof.length ≤ buf.length ∧
      ((take c buf c.sof.length c.lw = .more ∧ decodeFn c buf = (.needMoreBytes, 0)) ∨
       (take c buf c.sof.length c.lw = .bad ∧ decodeFn c buf = (.invalid .badEscape, nextMarker c buf 1)) ∨
       ∃ (lenBytes : Bytes) (i1 : Nat), take c buf c.sof.length c.lw = .ok lenBytes i1 ∧
        ((((bytesToNum lenBytes c.endian : Int) - c.lenAdj < c.opw ∨
            (bytesToNum lenBytes c.endian : Int) - c.lenAdj > c.maxBody) ∧
          decodeFn c buf = (.invalid .badLength, nextMarker c buf 1)) ∨
         (∃ b : Nat, (b : Int) = bytesToNum lenBytes c.endian - c.lenAdj ∧ c.opw ≤ b ∧ b ≤ c.maxBody ∧
          ((take c buf i1 (b + c.cw) = .more ∧ decodeFn c buf = (.needMoreBytes, 0)) ∨
           (take c buf i1 (b + c.cw) = .bad ∧ decodeFn c buf = (.invalid .badEscape, nextMarker c buf 1)) ∨
           ∃ (rest : Bytes) (i2 : Nat), take c buf i1 (b + c.cw) = .ok rest i2 ∧
            ((bytesToNum (rest.drop b) c.endian ≠ checkFn c (lenBytes ++ rest.take b) ∧
              decodeFn c buf = (.invalid .badChecksum, nextMarker c buf 1)) ∨
             (bytesToNum (rest.drop b) c.endian = checkFn c (lenBytes ++ rest.take b) ∧
              decodeFn c buf = (.frame ⟨c.sof, bytesToNum lenBytes c.endian, rest.take b,
                bytesToNum (rest.drop b) c.endian⟩, i2)))))))) := by
  by_cases h0 : buf = []
  · left; exact ⟨h0, by subst h0; rfl⟩
  have hl : buf.length ≠ 0 := fun h => h0 (List.length_eq_zero_iff.mp h)
  by_cases hp : nextMarker c buf 0 > 0
  · right; left; exact ⟨hp, h0, by rw [decodeFn, if_neg hl, if_pos hp]⟩
  by_cases hs : buf.length < c.sof.length
  · right; right; left; exact ⟨h0, by omega, hs, by rw [decodeFn, if_neg hl, if_neg hp, if_pos hs]⟩
  right; right; right
  refine ⟨h0, by omega, by omega, ?_⟩
  have hd := decodeFn.eq_def c buf
  rw [if_neg hl, if_neg hp, if_neg hs] at hd
  cases h1 : take c buf c.sof.length c.lw with
  | more => left; rw [h1] at hd; exact ⟨rfl, hd⟩
  | bad => right; left; rw [h1] at hd; exact ⟨rfl, hd⟩
  | ok lenBytes i1 =>
    right; right
    refine ⟨lenBytes, i1, rfl, ?_⟩
    rw [h1] at hd
    simp only [] at hd
    split at hd
    · rename_i hb; left; exact ⟨hb, hd⟩
    · rename_i hb
      right
      refine ⟨((bytesToNum lenBytes c.endian : Int) - c.lenAdj).toNat, by omega, by omega, by omega, ?_⟩
      cases h2 : take c buf i1 (((bytesToNum lenBytes c.endian : Int) - c.lenAdj).toNat + c.cw) with
      | more => left; rw [h2] at hd; exact ⟨rfl, hd⟩
      | bad => right; left; rw [h2] at hd; exact ⟨rfl, hd⟩
      | ok rest i2 =>
        right; right
        refine ⟨rest, i2, rfl, ?_⟩
        rw [h2] at hd
        simp only [] at hd
        split at hd
        · rename_i hc; left; exact ⟨hc, hd⟩
        · rename_i hc; right; exact ⟨not_not.mp hc, hd⟩

end Sys2Proof
end

