-- ==== Sys2Proof/Tests/Slice0.lean ====
section
/-!
SUPPORT. Tests. Expected results come from the spec's own tables (95_test_vectors.md, named in each comment), never from the
model. After them, for every statement with hypotheses, a concrete case that meets them together.
-/

namespace Sys2Proof.Tests

open Sys2Proof Sys2Proof.Machine

/-- An instance under `c` with bytes in RXBUF. -/
def inst (c : Config) (buf : Bytes) : State := { State.reset with cfg := c, rxbuf := buf }

/-! ### Decoding: the select codes of 30_encoding.md R93 bit by bit, a frame of R106 and the escape pair of R87 -/

theorem test_decode_encode : decodeCommand 0b000 0x02 [0x00, 0x10] = .ok (.encode 0x02 [0x00, 0x10]) := rfl
theorem test_decode_push : decodeCommand 0b001 0 [0xAA] = .ok (.push [0xAA]) := rfl
theorem test_decode_decode : decodeCommand 0b010 0 [] = .ok .decode := rfl
theorem test_decode_observe : decodeCommand 0b011 0 [] = .ok .observe := rfl
theorem test_decode_timeout : decodeCommand 0b100 0 [] = .ok .timeout := rfl
theorem test_decode_reset : decodeCommand 0b101 0 [] = .ok .reset := rfl
theorem test_decode_reserved6 : decodeCommand 0b110 0 [] = .ok .reserved6 := rfl
theorem test_decode_reserved7 : decodeCommand 0b111 0 [] = .ok .reserved7 := rfl
theorem test_decode_stray_operand : decodeCommand 0b010 0 [0x00] = .error .strayOperand := rfl
theorem test_decode_frame :
    decodeLine cfgSum8 [0x5A, 0x04, 0x10, 0x01, 0x02, 0x03, 0x1A] = .frame 0x10 [0x01, 0x02, 0x03] := by decide
theorem test_decode_esc_pair : decodeLine cfgEsc [0x7D, 0x5E] = .escPair 0x5E := by decide
theorem test_decode_line_noise : decodeLine cfgSum8 [0x03, 0x1A] = .push [0x03, 0x1A] := by decide

/-! ### Well-formedness: one ill-formed term for each check -/

theorem test_ill_sof : ({ cfgRef with sof := [] } : Config).wfWidths = false := by decide
theorem test_ill_lw : ({ cfgRef with lw := 5 } : Config).wfWidths = false := by decide
theorem test_ill_opw : ({ cfgRef with opw := 0 } : Config).wfWidths = false := by decide
theorem test_ill_cw : ({ cfgRef with cw := 0 } : Config).wfWidths = false := by decide
theorem test_ill_body : ({ cfgRef with maxBody := 0 } : Config).wfBody = false := by decide
theorem test_ill_length_negative : ({ cfgRef with lenAdj := -2 } : Config).wfLength = false := by decide
theorem test_ill_length_wide : ({ cfgRef with lenAdj := 64512 } : Config).wfLength = false := by decide
theorem test_ill_check_width : ({ cfgRef with cw := 1 } : Config).wfCheck = false := by decide
theorem test_ill_xor8_width : ({ cfgRef with check := .xor8 } : Config).wfCheck = false := by decide
theorem test_ill_esc_not_in_set : ({ cfgEsc with escSet := [0x7E] } : Config).wfEscape = false := by decide
theorem test_ill_sof_not_in_set : ({ cfgEsc with escSet := [0x7D] } : Config).wfEscape = false := by decide
theorem test_ill_mask_zero : ({ cfgEsc with escXor := 0 } : Config).wfEscape = false := by decide
theorem test_ill_mask_into_set : ({ cfgEsc with escXor := 0x03 } : Config).wfEscape = false := by decide
theorem test_ill_capacity : ({ cfgRef with rxcap := some 1029 } : Config).wfCap = false := by decide
theorem test_capacity_boundary : ({ cfgRef with rxcap := some 1030 } : Config).wf = true := by decide
theorem test_ill_offset : ({ cfgRef with offw := 0 } : Config).wfOffset = false := by decide
theorem test_ill_reserved : Instr.wf cfgRef .reserved6 = false ∧ Instr.wf cfgRef .reserved7 = false := by decide
theorem test_ill_frame_opcode : Instr.wf cfgRef (.frame 0x100 []) = false := by decide
theorem test_ill_frame_body : Instr.wf { cfgRef with maxBody := 1 } (.frame 0 [0]) = false := by decide
theorem test_ill_esc_pair : Instr.wf cfgRef (.escPair 0x5E) = false := by decide
theorem test_reference_legal : (cfgRef.wf && cfgBe.wf && cfgSum8.wf && cfgEsc.wf) = true := by decide

/-! ### The operations, on the spec's vectors -/

/-- E1. -/
theorem test_encode_E1 : encodeFn cfgRef 0x01 [] = some (.bytes [0xAA, 0x55, 0x01, 0x00, 0x01, 0x8D, 0xEB]) := by decide +kernel
/-- E20: escaping of body, and only of ESC and the marker. -/
theorem test_encode_E20 : encodeFn cfgEsc 0x7D [0x7E, 0x7E, 0x7E] =
    some (.bytes [0x7E, 0x04, 0x7D, 0x5D, 0x7D, 0x5E, 0x7D, 0x5E, 0x7D, 0x5E, 0xFB]) := by decide +kernel
/-- E8: the opcode is never truncated. -/
theorem test_encode_E8 : nextOf (exec (.encode 0x100 []) State.reset) =
    some { State.reset with returned := [.encoded (.refused .opcodeRange)] } := by decide +kernel
/-- T9. -/
theorem test_push_T9 : nextOf (exec (.push [0x55, 0x01]) (inst cfgRef [0xAA])) = some (inst cfgRef [0xAA, 0x55, 0x01]) := by
  decide +kernel
/-- A PUSH beyond RXCAP waits (20_memory.md R47). -/
theorem test_push_waits : nextOf (exec (.push [0x55, 0x01]) (inst { cfgRef with rxcap := some 2 } [0xAA])) =
    some { inst { cfgRef with rxcap := some 2 } [0xAA] with rxHeld := [[0x55, 0x01]] } := by decide +kernel
/-- V20: the resync skip stops at the marker inside the body. -/
theorem test_decode_V20 : decodeFn cfgRef [0xAA, 0x55, 0x06, 0x00, 0xFC, 0xAA, 0x55, 0x01, 0x00, 0x03, 0xF2, 0xDD] =
    (.invalid .badChecksum, 5) := by decide +kernel
/-- Program P2, step 7: the frame is returned with the bytes it was read from, and the offset advances. -/
theorem test_decode_P2 :
    nextOf (exec .decode { inst cfgSum8 [0x5A, 0x04, 0x10, 0x01, 0x02, 0x03, 0x1A, 0x5A, 0x01, 0x01, 0x02] with rxoff := 2 }) =
    some { inst cfgSum8 [0x5A, 0x01, 0x01, 0x02] with
      rxoff := 9
      returned := [.decoded (.frame ⟨[0x5A], 4, [0x10, 0x01, 0x02, 0x03], 0x1A⟩) 7
        [0x5A, 0x04, 0x10, 0x01, 0x02, 0x03, 0x1A]] } := by decide +kernel
/-- The example of 42_observe.md R140. -/
theorem test_observe_R140 : observeFn cfgSum8 [0x03, 0x1A, 0x5A, 0x01, 0x01, 0x02, 0x5A] 0 =
    some ([.rawSegment 0 [0x03, 0x1A] .noMarker, .frameEvent 2 ⟨[0x5A], 1, [0x01], 0x02⟩ [0x5A, 0x01, 0x01, 0x02]],
      [0x5A], 6) := by decide +kernel
/-- Program P5, step 3: a frame cut inside an escape pair, then two whole frames. -/
theorem test_observe_P5 : observeFn cfgEsc [0x7E, 0x03, 0x7D, 0x5E, 0x7D, 0x7E, 0x02, 0x02, 0x76, 0x7A, 0x7E, 0x03, 0x7D, 0x5E,
      0x7D, 0x5D, 0x01, 0xFF] 0 =
    some ([.rawSegment 0 [0x7E, 0x03, 0x7D, 0x5E, 0x7D] .badEscape,
      .frameEvent 5 ⟨[0x7E], 2, [0x02, 0x76], 0x7A⟩ [0x7E, 0x02, 0x02, 0x76, 0x7A],
      .frameEvent 10 ⟨[0x7E], 3, [0x7E, 0x7D, 0x01], 0xFF⟩ [0x7E, 0x03, 0x7D, 0x5E, 0x7D, 0x5D, 0x01, 0xFF]], [], 18) := by
  decide +kernel
/-- T4. -/
theorem test_timeout_T4 : nextOf (exec .timeout (inst cfgRef [0xAA, 0x55, 0x05, 0x00, 0xAA, 0x55, 0x01])) =
    some { inst cfgRef [0xAA, 0x55, 0x01] with
      rxoff := 4, returned := [.timedOut (.invalid .stalled) 4 [0xAA, 0x55, 0x05, 0x00]] } := by decide +kernel
/-- T6: a verdict is ready. -/
theorem test_timeout_T6 : nextOf (exec .timeout (inst cfgRef [0x00, 0xAA])) =
    some { inst cfgRef [0x00, 0xAA] with returned := [.timedOut .noAction 0 []] } := by decide +kernel
/-- T8. -/
theorem test_reset_T8 : nextOf (exec .reset { inst cfgRef [0xAA, 0x55, 0x05] with rxoff := 40 }) = some State.reset := by
  decide +kernel
/-- R94(a). -/
theorem test_reserved : exec .reserved6 State.reset = .refused (.reservedSelect 6) ∧
    exec .reserved7 State.reset = .refused (.reservedSelect 7) := ⟨rfl, rfl⟩
/-- E18 on the line. -/
theorem test_frame_E18 : nextOf (exec (.frame 0x7E [0x7D, 0x01]) (inst cfgEsc [])) =
    some (inst cfgEsc [0x7E, 0x03, 0x7D, 0x5E, 0x7D, 0x5D, 0x01, 0xFF]) := by decide +kernel
/-- The pair of 30_encoding.md R87; V33 says what DECODE makes of an illegal one. -/
theorem test_esc_pair : nextOf (exec (.escPair 0x00) (inst cfgEsc [0x7E, 0x03])) = some (inst cfgEsc [0x7E, 0x03, 0x7D, 0x00]) ∧
    decodeFn cfgEsc [0x7E, 0x03, 0x7D, 0x00] = (.invalid .badEscape, 4) := by decide +kernel

/-- The lines of 30_encoding.md R96 and the opcode of E8. -/
theorem test_text : instrText cfgRef (.encode 0x02 [0x00, 0x10]) = some "ENCODE op=0x02 payload=[00 10]".toList ∧
    instrText cfgRef (.push [0xAA, 0x55]) = some "PUSH [AA 55]".toList ∧ hexNumber 0x100 = "0x100".toList := by
  refine ⟨?_, ?_, ?_⟩ <;> decide +kernel

/-- Byte order: the `num_to_bytes` examples of 30_encoding.md R64. -/
theorem test_num_to_bytes : numToBytes 0x8F89 2 .little = some [0x89, 0x8F] ∧ numToBytes 5 2 .big = some [0x00, 0x05] ∧
    numToBytes 0x100 1 .big = none := by decide
/-- `take` vectors of 95_test_vectors.md section 4. -/
theorem test_take : take cfgEsc [0x7E, 0x03, 0x7D, 0x5E, 0x7D, 0x5D, 0x01, 0xFF] 2 4 = .ok [0x7E, 0x7D, 0x01, 0xFF] 8 ∧
    take cfgEsc [0x7E, 0x03, 0x7D] 2 1 = .more ∧ take cfgEsc [0x7E, 0x03, 0x7E] 2 1 = .bad ∧
    take cfgRef [0x01, 0x02, 0x03] 1 3 = .more := by decide

/-! ### Through step: the first instruction after reset is the one of the table's word (log 5) -/

theorem test_step_fetches : (step (State.reset.withFetchWord 8 2) = exec .decode State.reset) ∧
    (step (State.reset.withFetchWord 8 6) = .refused (.reservedSelect 6)) := ⟨rfl, rfl⟩
theorem test_step_stray : step { State.reset with inputs := [.command 5 1 []] } = .refused (.undecodable .strayOperand) := rfl
/-- A held PUSH is delivered as soon as it is enabled. -/
theorem test_step_delivers : nextOf (step { inst { cfgRef with rxcap := some 2 } [0x13] with
      inputs := [.command 2 0 []], rxHeld := [[0xAA, 0x55]] }) =
    some { inst { cfgRef with rxcap := some 2 } [0xAA, 0x55] with
      rxoff := 1, returned := [.decoded (.invalid .noMarker) 1 [0x13]] } := by decide +kernel

/-! ### Witnesses: the hypotheses of the statements can be met -/

/-- The small configuration of the boundary witnesses: CFG_SUM8 with a body of at most 2 bytes. -/
def small : Config := { cfgSum8 with maxBody := 2 }
/-- The same with a buffer that just holds a maximal frame (R14(g)). -/
def smallCap : Config := { small with rxcap := some 5 }

/-- ResetAndCreationLeaveAnEmptyBuffer, AChangedBodyByteIsDetected: a well-formed configuration. -/
theorem test_witness_wellFormed : ∃ c : Config, c.WellFormed ∧ c.escEn = false := ⟨cfgSum8, cfgSum8_wellFormed, rfl⟩
/-- StepRunsTheDecodedInstruction, its three clauses. -/
theorem test_witness_step :
    (∃ s : State, ∃ t, s.inputs = [.command 2 0 []] ∧ decodeInstr s.cfg (.command 2 0 []) = .ok .decode ∧
      Instr.wf s.cfg .decode = true ∧ exec .decode { s with inputs := [] } = .next t ∧ t.rxHeld = []) ∧
    State.reset.inputs = [] ∧ decodeInstr cfgRef (.command 2 1 []) = .error .strayOperand :=
  ⟨⟨{ State.reset with inputs := [.command 2 0 []] }, _, rfl, rfl, rfl, rfl, rfl⟩, rfl, rfl⟩
/-- EncodeReturnsTheWireFrameOrRefuses and FrameArrivesAsItsWireBytes, each clause at the boundary of its range. -/
theorem test_witness_encode : small.wf = true ∧ 2 ^ (8 * small.opw) ≤ 256 ∧
    (255 < 2 ^ (8 * small.opw) ∧ small.maxBody < small.opw + [0#8, 0#8].length) ∧
    (255 < 2 ^ (8 * small.opw) ∧ small.opw + [0#8].length ≤ small.maxBody) ∧
    encodeFn small 255 [0] = some (.bytes [0x5A, 0x02, 0xFF, 0x00, 0x01]) := by decide +kernel
/-- FrameArrivesAsItsWireBytes: the frame fits, and does not fit, the buffer. -/
theorem test_witness_frame_fits : smallCap.wf = true ∧
    (inst smallCap []).pushEnabled [0x5A, 0x02, 0xFF, 0x00, 0x01] = true ∧
    (inst smallCap [0x00]).pushEnabled [0x5A, 0x02, 0xFF, 0x00, 0x01] = false := by decide +kernel
/-- PushAppendsItsBytes, APushThatIsNotEnabledWaits: at the capacity, one beyond it, and behind held bytes. -/
theorem test_witness_push : (inst smallCap [0x00]).rxHeld = [] ∧
    (∀ cap, smallCap.rxcap = some cap → [0#8].length + [1#8, 2#8, 3#8, 4#8].length ≤ cap) ∧
    smallCap.rxcap = some 5 ∧ 5 < [0#8].length + [1#8, 2#8, 3#8, 4#8, 5#8].length ∧
    ({ inst small [] with rxHeld := [[0]] } : State).rxHeld ≠ [] ∧
    (∀ cap, smallCap.rxcap = some cap → [0#8].length ≤ cap) ∧
    (∀ cap, smallCap.rxcap = some cap → [0#8].length + ([1#8, 2#8] ++ [3#8, 4#8]).length ≤ cap) := by
  refine ⟨rfl, ?_, rfl, by decide, by decide, ?_, ?_⟩ <;> rintro cap ⟨⟩ <;> decide
/-- DecodeConsumesWhatItJudged, ConsumedCountsAreAsListed, FramesSatisfyTheFrameInvariant: a Frame verdict, and one of each other
kind. -/
theorem test_witness_decode : (cfgSum8.wf && cfgEsc.wf) = true ∧ decodeFn cfgSum8 [0x5A, 0x01, 0x01, 0x02] = (.frame ⟨[0x5A], 1, [0x01], 2⟩, 4) ∧
    decodeFn cfgSum8 [] = (.needMoreBytes, 0) ∧ decodeFn cfgSum8 [0x00] = (.invalid .noMarker, 1) ∧
    decodeFn cfgSum8 [0x5A, 0x00] = (.invalid .badLength, 2) ∧
    decodeFn cfgSum8 [0x5A, 0x01, 0x01, 0x03] = (.invalid .badChecksum, 4) ∧
    decodeFn cfgEsc [0x7E, 0x7E] = (.invalid .badEscape, 1) := by decide +kernel
/-- ObserveDecodesEverythingThere, NeedMoreBytesChangesNothing, ObserveIsDrain, ObservedEventsCoverTheConsumedBytes. -/
theorem test_witness_observe : cfgSum8.wf = true ∧ (decodeFn cfgSum8 [0x5A]).1 = .needMoreBytes ∧ 0 < 2 ^ cfgSum8.offw ∧
    eventOf 0 [0x00] (decodeFn cfgSum8 [0x00]).1 = some (.rawSegment 0 [0x00] .noMarker) := by decide +kernel
theorem test_witness_observed : ∃ t, exec .observe (inst cfgSum8 []) = .next t ∧ t.returned = [] ++ [.observed []] ∧
    ([Event.rawSegment 0 [0x00] .noMarker] = [] ++ Event.rawSegment 0 [0x00] .noMarker :: []) := ⟨_, rfl, rfl, rfl⟩
/-- TimeoutDropsOnlyAStalledCandidate, its three clauses. -/
theorem test_witness_timeout : (inst cfgSum8 []).rxbuf = [] ∧ decodeFn cfgSum8 [0x00] ≠ (.needMoreBytes, 0) ∧
    ((inst cfgSum8 [0x5A]).rxbuf ≠ [] ∧ decodeFn cfgSum8 [0x5A] = (.needMoreBytes, 0)) := by decide +kernel
/-- EscPairArrivesAsTwoBytes, its clauses. -/
theorem test_witness_esc_pair : (inst cfgEsc []).cfg.escEn = true ∧ (inst cfgEsc []).pushEnabled [0x7D, 0x00] = true ∧
    (inst { cfgEsc with rxcap := some 1 } []).pushEnabled [0x7D, 0x00] = false ∧ (inst cfgRef []).cfg.escEn = false := by
  decide
/-- The statements about whatever exec, step, execAt or a run answers: each answers a next state somewhere. -/
theorem test_witness_next : (∃ t, exec .decode State.reset = .next t) ∧ (∃ t, exec (.encode 256 []) State.reset = .next t) ∧
    (∃ t, step State.reset = .next t) ∧ (∃ t, execAt 0 .reset [State.reset] = .next t) ∧ [State.reset][0]? = some State.reset ∧
    (∀ op pl, Instr.decode ≠ .encode op pl) ∧ Instr.wf cfgRef .decode = true ∧ cfgRef.wf = true :=
  ⟨⟨_, rfl⟩, ⟨_, rfl⟩, ⟨_, rfl⟩, ⟨_, rfl⟩, rfl, by intros; simp, rfl, by decide⟩
/-- NumToBytesIsPositional and NumbersAndBytesRoundTrip at the boundary of one byte. -/
theorem test_witness_numbers : 255 < 2 ^ (8 * 1) ∧ 2 ^ (8 * 1) ≤ 256 ∧ numToBytes 255 1 .big = some [0xFF] := by decide
/-- CheckFamiliesDetectEveryByteChange. -/
theorem test_witness_families : cfgRef.wfCheck = true ∧ 1 ≤ cfgRef.cw ∧ (∀ p, cfgRef.check = .crc p → p.poly % 2 = 1) ∧
    (∀ id, cfgRef.check ≠ .vendor id) ∧ DifferInOneByte [0x00] [0x01] :=
  ⟨by decide, by decide, by rintro p ⟨⟩; decide, by intro id; simp [cfgRef], [], [], 0x00, 0x01, by decide, rfl, rfl⟩
/-- WithoutEscapingWireBytesAreLogicalBytes and TakeInvertsEscape: both answers at the end of the buffer. -/
theorem test_witness_take : cfgSum8.escEn = false ∧ 1 + 2 ≤ [1#8, 2#8, 3#8].length ∧ [1#8, 2#8, 3#8].length < 1 + 3 ∧
    cfgEsc.wf = true ∧ 0 ≤ [0x7D#8, 0x5E#8].length ∧ take cfgEsc [0x7D, 0x5E] 0 1 = .ok [0x7E] 2 := by decide +kernel
/-- NextMarkerIsTheFirstPlausiblePosition, with a skipped position (first row of 95_test_vectors.md section 4). -/
theorem test_witness_next_marker : 0 ≤ [0x00#8, 0x13#8, 0xAA#8, 0x55#8, 0x01#8].length ∧
    nextMarker cfgRef [0x00, 0x13, 0xAA, 0x55, 0x01] 0 = 2 := by decide +kernel
/-- PartialMarkerAtTheEndIsKept (V11). -/
theorem test_witness_partial_marker : (∃ t, exec .decode (inst cfgRef [0x00, 0x13, 0xAA]) = .next t) ∧
    0 < 1 ∧ 1 ≤ [0x00#8, 0x13, 0xAA].length ∧ 2 ≤ [0x00#8, 0x13, 0xAA].length - 1 ∧
    1 < cfgRef.sof.length ∧ [0x00#8, 0x13, 0xAA].drop (3 - 1) = cfgRef.sof.take 1 ∧
    (decodeFn cfgRef [0x00, 0x13, 0xAA]).1 = .invalid .noMarker := ⟨⟨_, rfl⟩, by decide, by decide, by decide, by decide, by decide, by decide +kernel⟩
/-- MalformedLengthIsJudgedAtOnce: below OPW, above MAX_BODY, and both ends of the legal range. -/
theorem test_witness_length : small.wf = true ∧ [0x00#8].length = small.lw ∧
    ((bytesToNum [0x00] small.endian : Int) - small.lenAdj < small.opw) ∧
    ((small.maxBody : Int) < bytesToNum [0x03] small.endian - small.lenAdj) ∧
    ((small.opw : Int) ≤ bytesToNum [0x01] small.endian - small.lenAdj) ∧
    ((bytesToNum [0x02] small.endian : Int) - small.lenAdj ≤ small.maxBody) := by decide +kernel
/-- VerdictsAreStableUnderAppending: a Frame, and a rejected candidate with a whole marker behind it. -/
theorem test_witness_stable : cfgSum8.wf = true ∧ decodeFn cfgSum8 [0x5A, 0x01, 0x01, 0x02] = (.frame ⟨[0x5A], 1, [0x01], 2⟩, 4) ∧
    decodeFn cfgSum8 [0x5A, 0x00, 0x5A] = (.invalid .badLength, 2) ∧ 2 + cfgSum8.sof.length ≤ 3 ∧
    InvalidReason.badLength ≠ .noMarker := by decide +kernel
/-- The laws about a frame of ENCODE: WireLengthIsWithinItsBounds, EncodedFramesDecodeBack, ProperPrefixesOfFramesNeedMoreBytes,
AFrameOnTheLineIsReturnedByTheNextDecode, EveryWellFormedInstructionDecodesBack. -/
theorem test_witness_laws : cfgSum8.wf = true ∧ (inst cfgSum8 []).rxHeld = [] ∧ (inst cfgSum8 []).rxbuf = [] ∧ encodeFn cfgSum8 0x01 [] = some (.bytes ([0x5A, 0x01] ++ 0x01 :: [0x02])) ∧
    3 < [0x5A#8, 0x01, 0x01, 0x02].length ∧ Instr.wf cfgSum8 (.frame 0x01 []) = true ∧
    ({ inst cfgSum8 [] with inputs := [.line [0x5A, 0x01, 0x01, 0x02], .command 2 0 []] } : State).inputs =
      .line [0x5A, 0x01, 0x01, 0x02] :: .command 2 0 [] :: [] := by decide +kernel
/-- AChangedBodyByteIsDetected: the one body byte of E12, first and last of the range at once. -/
theorem test_witness_changed_byte : cfgSum8.WellFormed ∧ cfgSum8.escEn = false ∧
    encodeFn cfgSum8 0x01 [] = some (.bytes ([0x5A, 0x01] ++ 0x01 :: [0x02])) ∧ 0x01#8 ≠ 0x03#8 ∧
    cfgSum8.sof.length + cfgSum8.lw ≤ [0x5A#8, 0x01].length ∧ cfgSum8.cw ≤ [0x02#8].length :=
  ⟨cfgSum8_wellFormed, rfl, by decide +kernel, by decide, by decide, by decide⟩
/-- TheFrameAfterACorruptedOneIsRecovered (V25 between two copies of E12). -/
theorem test_witness_resync : cfgSum8.wf = true ∧ encodeFn cfgSum8 0x01 [] = some (.bytes [0x5A, 0x01, 0x01, 0x02]) ∧
    decodeFn cfgSum8 [0x5A, 0x01, 0x01, 0x03] = (.invalid .badChecksum, [0x5A#8, 0x01, 0x01, 0x03].length) ∧
    InvalidReason.badChecksum ≠ .noMarker := by decide +kernel
/-- ACutEscapedFrameIsRejectedAtTheNextMarker, cut right after the marker and before the last byte (E18). -/
theorem test_witness_cut : cfgEsc.wf = true ∧ cfgEsc.escEn = true ∧ cfgEsc.esc ∉ cfgEsc.sof ∧
    encodeFn cfgEsc 0x7E [0x7D, 0x01] = some (.bytes [0x7E, 0x03, 0x7D, 0x5E, 0x7D, 0x5D, 0x01, 0xFF]) ∧
    cfgEsc.sof.length ≤ 1 ∧ 7 < [0x7E#8, 0x03, 0x7D, 0x5E, 0x7D, 0x5D, 0x01, 0xFF].length := by decide +kernel
/-- PhasesMoveAsTheTableSays, the marker's clauses: a first byte that is not the marker's, a partial marker, one that breaks, a
buffer in HUNT. -/
theorem test_witness_phases_marker : cfgRef.wf = true ∧ cfgRef.sof.head? ≠ some 0x00#8 ∧ 0 < 1 ∧ 1 < cfgRef.sof.length ∧
    cfgRef.sof[1]? ≠ some 0xAA#8 ∧ dphase cfgRef [0x00, 0xAA] = .hunt := by decide +kernel
/-- The length and body clauses at both ends of the legal range (1 and 2 bytes) and one outside each. -/
theorem test_witness_phases_length : small.wf = true ∧ [0x01#8].length = small.lw ∧ small.cw = [0x00#8].length ∧
    (small.opw : Int) = bytesToNum [0x01] small.endian - small.lenAdj ∧ small.opw = [0x00#8].length ∧
    (small.maxBody : Int) = bytesToNum [0x02] small.endian - small.lenAdj ∧ small.maxBody = [0x00#8, 0x00#8].length ∧
    (bytesToNum [0x00] small.endian : Int) - small.lenAdj < small.opw ∧
    (small.maxBody : Int) < bytesToNum [0x03] small.endian - small.lenAdj := by decide +kernel
/-- The escape clause: a marker byte with no ESC waiting (V34, V38), and an illegal partner (V33), in LEN, BODY and CHECK. -/
theorem test_witness_phases_escape : cfgEsc.wf = true ∧ cfgEsc.escEn = true ∧ dphase cfgEsc [0x7E] = .len ∧
    dphase cfgEsc [0x7E, 0x03, 0x10] = .body ∧ dphase cfgEsc [0x7E, 0x01, 0x10] = .check ∧
    dphase cfgEsc [0x7E, 0x03, 0x7D] = .body ∧
    ([0x7E#8, 0x03, 0x10].drop cfgEsc.sof.length).getLast? ≠ some cfgEsc.esc ∧ 0x7E#8 ≠ cfgEsc.esc ∧ 0x7E#8 ∈ cfgEsc.escSet ∧
    ([0x7E#8, 0x03, 0x7D].drop cfgEsc.sof.length).getLast? = some cfgEsc.esc ∧ 0x00#8 ^^^ cfgEsc.escXor ∉ cfgEsc.escSet := by
  decide +kernel
/-- The READY, TIMEOUT and RESET clauses. -/
theorem test_witness_phases_steps : dphase cfgSum8 [0x5A, 0x01, 0x01, 0x02] = .ready ∧
    (∃ u, exec .decode (inst cfgSum8 [0x5A, 0x01, 0x01, 0x02]) = .next u) ∧ dphase cfgRef [0xAA] = .mark ∧
    dphase cfgRef [0xAA, 0x55] = .len ∧ (∃ u, exec .timeout (inst cfgRef [0xAA, 0x55]) = .next u) ∧
    ∃ u, exec .reset (inst cfgRef [0xAA]) = .next u :=
  ⟨by decide +kernel, ⟨_, rfl⟩, by decide +kernel, by decide +kernel, ⟨_, rfl⟩, ⟨_, rfl⟩⟩
/-- AStalledBufferIsShorterThanAMaximalFrame. -/
theorem test_witness_stalled : smallCap.wf = true ∧ (inst smallCap [0x5A, 0x02, 0x00, 0x00]).Drained ∧
    (inst smallCap [0x5A]).rxHeld = [] :=
  ⟨by decide, by rw [State.Drained]; decide +kernel, rfl⟩
/-- EveryStepKeepsTheInvariant: an instance with a frame in RXBUF and a DECODE to take. -/
theorem test_witness_invariant : ∃ s s' : State, s.Inv ∧ s.rxbuf ≠ [] ∧ Sys2Proof.Machine.step s = .next s' :=
  ⟨{ inst smallCap [0x5A, 0x01, 0x01, 0x02] with inputs := [.command 2 0 []] }, _,
    ⟨by decide, by decide, by decide, trivial, by simp [inst]⟩, by simp [inst], rfl⟩
/-- NoByteIsLostDuplicatedOrReordered, TransmitStreamIsInEncodeOrder. -/
theorem test_witness_run : (∀ i ∈ [Instr.push [0x00], .decode, .timeout, .observe], i ≠ Instr.reset) ∧
    (0 < 2 ^ cfgSum8.offw) ∧ ∃ t, runInstrs [.push [0x00], .decode, .timeout, .observe] (inst cfgSum8 []) = .next t :=
  ⟨by decide, by decide, _, rfl⟩
/-- FramesDoNotDependOnFragmentation, with a bounded buffer: E12 twice, cut once with a DECODE in between, and pushed so that the
second piece has to wait for the first DECODE. -/
theorem test_witness_fragmentation : ∃ t1 t2,
    RunOver [0x5A, 0x01, 0x01, 0x02, 0x5A, 0x01, 0x01, 0x02]
      [.push [0x5A, 0x01, 0x01, 0x02], .decode, .push [0x5A, 0x01], .decode, .push [0x01, 0x02], .observe] (inst smallCap []) t1 ∧
    RunOver [0x5A, 0x01, 0x01, 0x02, 0x5A, 0x01, 0x01, 0x02]
      [.push [0x5A, 0x01, 0x01, 0x02], .push [0x5A, 0x01, 0x01, 0x02], .decode, .encode 1 [], .decode] (inst smallCap []) t2 ∧
    smallCap.wf = true ∧ (inst smallCap []).rxoff < 2 ^ smallCap.offw ∧ smallCap.rxcap = some 5 :=
  ⟨_, _, ⟨rfl, rfl, rfl, by rw [State.Drained]; decide +kernel⟩, ⟨rfl, rfl, rfl, by rw [State.Drained]; decide +kernel⟩,
    by decide, by decide, rfl⟩
theorem test_witness_fragmentation_ops : ∀ i ∈
    [Instr.push [0x5A, 0x01, 0x01, 0x02], .decode, .push [0x5A, 0x01], .decode, .push [0x01, 0x02], .observe] ++
      [.push [0x5A, 0x01, 0x01, 0x02], .push [0x5A, 0x01, 0x01, 0x02], .decode, .encode 1 [], .decode],
    i ≠ .timeout ∧ i ≠ .reset := by decide
/-- A held PUSH is delivered in a run, and in a run over several instances to its own instance alone (log 6, log 17). -/
theorem test_held_delivered_in_runs :
    nextOf (runInstrs [.push [0x13, 0x13], .push [0xAA, 0x55], .decode] (inst { cfgRef with rxcap := some 2 } [])) =
      some { inst { cfgRef with rxcap := some 2 } [0xAA, 0x55] with
        rxoff := 2, returned := [.decoded (.invalid .noMarker) 2 [0x13, 0x13]] } ∧
    execAt 1 .reset [State.reset, { inst { cfgRef with rxcap := some 2 } [0x13] with rxHeld := [[0xAA, 0x55]] }] =
      .next [State.reset, inst { cfgRef with rxcap := some 2 } [0xAA, 0x55]] := ⟨by decide +kernel, rfl⟩
/-- AnOverRunChangesOnlyByTimeoutOrReset: an over run with a DECODE still to take. -/
theorem test_witness_over : ∃ s t : State, s.Inv ∧ s.Over ∧ step s = .next t ∧ s.inputs = [.command 2 0 []] ∧
    decodeInstr s.cfg (.command 2 0 []) ≠ .ok .timeout ∧ decodeInstr s.cfg (.command 2 0 []) ≠ .ok .reset :=
  ⟨{ inst smallCap [0x5A] with inputs := [.command 2 0 []] }, _, ⟨by decide, by decide, by decide, trivial, by simp [inst]⟩,
    ⟨rfl, rfl, by rw [State.Drained]; decide +kernel⟩, rfl, rfl, nofun, nofun⟩
/-- A state with a PUSH held, or one still to take, is not over. -/
theorem test_not_over : ¬ State.Over { inst smallCap [0x5A] with rxHeld := [[0x00]] } ∧
    ¬ State.Over { inst smallCap [0x5A] with inputs := [.command 1 0 [0x00]] } :=
  ⟨fun h => absurd h.held (by decide), fun h => absurd h.pushed (by decide)⟩
/-- InfiniteRunsNeverHalt. -/
theorem test_witness_infinite : cfgSum8.wf = true ∧ ∀ n : Nat, Instr.wf cfgSum8 ((fun _ => .push [0x5A]) n) = true :=
  ⟨by decide, fun _ => rfl⟩

end Sys2Proof.Tests
end

section
/-!
PROOFS. Reset and creation (10_state.md R30, 70_reset_and_hazards.md R190).
-/

namespace Sys2Proof.Machine

@[simp] theorem instantiate_cfg (c : Config) (h : c.WellFormed) : (State.instantiate c h).cfg = c := rfl
@[simp] theorem instantiate_rxbuf (c : Config) (h : c.WellFormed) : (State.instantiate c h).rxbuf = [] := rfl
@[simp] theorem instantiate_rxoff (c : Config) (h : c.WellFormed) : (State.instantiate c h).rxoff = 0 := rfl

/-- The first row of the phase table (10_state.md R29). -/
@[simp] theorem dphase_nil (c : Config) : dphase c [] = .idle := rfl

/-- Settles O1: reset, creation and RESET each write an empty buffer, and an empty buffer is in phase IDLE whatever the
configuration. -/
theorem resetAndCreationLeaveAnEmptyBuffer : Obligations.ResetAndCreationLeaveAnEmptyBuffer := by
  refine ⟨reset_rxbuf, reset_rxoff, ?_, fun c h => ?_, fun s => ?_⟩
  · rw [reset_rxbuf, dphase_nil]
  · exact ⟨instantiate_rxbuf c h, instantiate_rxoff c h, instantiate_cfg c h⟩
  · exact ⟨_, exec_reset s, rfl, rfl, rfl, dphase_nil s.cfg⟩

end Sys2Proof.Machine
end

section
/-!
PROOFS. Field assembly (30_encoding.md R64): `numToBytes` and `bytesToNum` are inverse to each other.
-/

namespace Sys2Proof

theorem two_pow_eight_mul_succ (w : Nat) : 2 ^ (8 * (w + 1)) = 256 * 2 ^ (8 * w) := by
  rw [Nat.mul_succ, Nat.pow_add, Nat.mul_comm]

theorem leNum_lt (b : Bytes) : leNum b < 2 ^ (8 * b.length) := by
  induction b with
  | nil => simp [leNum]
  | cons x xs ih =>
    have hx := x.isLt
    rw [List.length_cons, two_pow_eight_mul_succ, leNum]
    omega

theorem leBytes_leNum (b : Bytes) : leBytes (leNum b) b.length = b := by
  induction b with
  | nil => rfl
  | cons x xs ih =>
    have hx := x.isLt
    have low : BitVec.ofNat 8 (leNum (x :: xs)) = x := by
      apply BitVec.eq_of_toNat_eq
      rw [BitVec.toNat_ofNat, leNum]
      omega
    have high : leNum (x :: xs) / 256 = leNum xs := by rw [leNum]; omega
    rw [List.length_cons, leBytes, low, high, ih]

theorem leNum_leBytes {v w : Nat} (h : v < 2 ^ (8 * w)) : leNum (leBytes v w) = v := by
  induction w generalizing v with
  | zero => simp at h; simp [leBytes, leNum, h]
  | succ w ih =>
    rw [two_pow_eight_mul_succ] at h
    rw [leBytes, leNum, ih (by omega), BitVec.toNat_ofNat]
    omega

theorem bytesToNum_lt (b : Bytes) (e : Endian) : bytesToNum b e < 2 ^ (8 * b.length) := by
  cases e with
  | little => exact leNum_lt b
  | big => simpa [bytesToNum] using leNum_lt b.reverse

/-- Reading bytes as a number and writing the number again in as many bytes gives the bytes back. -/
theorem numToBytes_bytesToNum (b : Bytes) (e : Endian) : numToBytes (bytesToNum b e) b.length e = some b := by
  unfold numToBytes
  rw [if_pos (bytesToNum_lt b e)]
  cases e with
  | little => simp [bytesToNum, leBytes_leNum]
  | big =>
    have h := leBytes_leNum b.reverse
    rw [List.length_reverse] at h
    simp [bytesToNum, h]

/-- Everything a defined `numToBytes` says: the number fits, and the bytes are as many as asked and read back as it. -/
theorem numToBytes_eq_some {v w : Nat} {e : Endian} {b : Bytes} (h : numToBytes v w e = some b) :
    v < 2 ^ (8 * w) ∧ b.length = w ∧ bytesToNum b e = v := by
  unfold numToBytes at h
  split at h
  · rename_i hv
    cases e with
    | little => cases h; exact ⟨hv, leBytes_length v w, leNum_leBytes hv⟩
    | big => cases h; exact ⟨hv, by simp, by simp [bytesToNum, leNum_leBytes hv]⟩
  · cases h

/-- A defined length field carries the body length plus LEN_ADJ (30_encoding.md R63). -/
theorem lengthField_eq_some {c : Config} {n : Nat} {b : Bytes} (h : lengthField c n = some b) :
    ∃ v : Nat, (v : Int) = n + c.lenAdj ∧ numToBytes v c.lw c.endian = some b := by
  simp only [lengthField] at h
  split at h
  · cases h
  · exact ⟨_, by omega, h⟩

end Sys2Proof
end

section
/-!
PROOFS. What `take` accepts is the escaped form of what it returns (30_encoding.md R88), and a start marker accepted in full
stands at the head of the buffer (41_decode.md R112).
-/

namespace Sys2Proof

/-- Everything an answer of `Take.cons` with logical bytes can come from. -/
theorem cons_eq_ok {t : Take} {v : Byte} {n m : Nat} {out : Bytes} (h : t.cons v n = .ok out m) :
    ∃ out' m', t = .ok out' m' ∧ out = v :: out' ∧ m = n + m' := by
  cases t with
  | ok out' m' => cases h; exact ⟨out', m', rfl, rfl, rfl⟩
  | more => cases h
  | bad => cases h

theorem escapeByte_of_mem {c : Config} {b : Byte} (h : b ∈ c.escSet) : escapeByte c b = [c.esc, b ^^^ c.escXor] := if_pos h

theorem escapeByte_of_not_mem {c : Config} {b : Byte} (h : b ∉ c.escSet) : escapeByte c b = [b] := if_neg h

/-- The loop of `take` reads exactly the escaped form of the `k` logical bytes it returns. -/
theorem unescape_eq_ok {c : Config} {k n : Nat} {l out : Bytes} (h : unescape c k l = .ok out n) :
    out.length = k ∧ n = (escapeAll c out).length ∧ l = escapeAll c out ++ l.drop n := by
  induction k, l using unescape.induct (c := c) generalizing out n with
  | case1 l => simp only [unescape_zero] at h; cases h; simp
  | case2 k => cases h
  | case3 k => simp [unescape] at h
  | case4 k x rest hx ih =>
    simp only [unescape, if_pos hx, if_true] at h
    obtain ⟨out', m, ht, rfl, rfl⟩ := cons_eq_ok h
    obtain ⟨hk, hm, hl⟩ := ih ht
    have pair : escapeByte c (x ^^^ c.escXor) = [c.esc, x] := by
      rw [escapeByte_of_mem hx, BitVec.xor_assoc, BitVec.xor_self, BitVec.xor_zero]
    refine ⟨by simp [hk], by simp [pair, hm]; omega, ?_⟩
    rw [escapeAll_cons, pair, Nat.add_comm 2 m]
    exact congrArg (c.esc :: x :: ·) hl
  | case5 k x rest hx => simp [unescape, hx] at h
  | case6 k b rest hb hs => simp [unescape, hb, hs] at h
  | case7 k b rest hb hs ih =>
    rw [unescape.eq_def] at h
    simp only [if_neg hb, if_neg hs] at h
    obtain ⟨out', m, ht, rfl, rfl⟩ := cons_eq_ok h
    obtain ⟨hk, hm, hl⟩ := ih ht
    have plain : escapeByte c b = [b] := escapeByte_of_not_mem hs
    refine ⟨by simp [hk], by simp [plain, hm]; omega, ?_⟩
    rw [escapeAll_cons, plain, Nat.add_comm 1 m]
    exact congrArg (b :: ·) hl

/-- Everything an accepting `take` says: it returns `k` logical bytes, whose escaped form stands in the buffer from index `i` to
the index it answers (30_encoding.md R88, R92). -/
theorem take_eq_ok {c : Config} {buf out : Bytes} {i k j : Nat} (h : take c buf i k = .ok out j) :
    out.length = k ∧ j = i + (escape c out).length ∧ buf.drop i = escape c out ++ buf.drop j := by
  cases he : c.escEn with
  | true =>
    rw [take, if_pos he] at h
    cases hu : unescape c k (buf.drop i) with
    | ok out' n =>
      rw [hu] at h
      cases h
      obtain ⟨hk, hn, hl⟩ := unescape_eq_ok hu
      rw [escape_on he]
      exact ⟨hk, by rw [hn], by rwa [List.drop_drop] at hl⟩
    | more => rw [hu] at h; cases h
    | bad => rw [hu] at h; cases h
  | false =>
    simp only [take, he, Bool.false_eq_true, if_false] at h
    split at h
    · cases h
    · cases h
      rw [escape_off he, ← List.drop_drop, List.take_append_drop]
      exact ⟨by simp; omega, by simp; omega, rfl⟩

/-- Two sequences agree as far as the shorter one goes if and only if one is a prefix of the other. -/
theorem agrees_iff_prefix (x y : Bytes) : agrees x y = true ↔ x <+: y ∨ y <+: x := by
  induction x generalizing y with
  | nil => simp
  | cons a as ih =>
    cases y with
    | nil => simp [agrees]
    | cons b bs =>
      simp only [agrees_cons, Bool.and_eq_true, beq_iff_eq, ih, List.cons_prefix_cons]
      constructor
      · rintro ⟨rfl, h | h⟩
        · exact .inl ⟨rfl, h⟩
        · exact .inr ⟨rfl, h⟩
      · rintro (⟨rfl, h⟩ | ⟨rfl, h⟩)
        · exact ⟨rfl, .inl h⟩
        · exact ⟨rfl, .inr h⟩

/-- The scan for a marker stops at the head exactly where the head is plausible. -/
theorem markerScan_eq_zero_iff (sof : Bytes) {l : Bytes} (h : l ≠ []) : markerScan sof l = 0 ↔ agrees sof l = true := by
  cases l with
  | nil => exact absurd rfl h
  | cons b bs => simp [markerScan]

/-- The head of a buffer that is not empty is a plausible marker position exactly where it agrees with SOF. -/
theorem nextMarker_zero_eq_zero_iff (c : Config) {buf : Bytes} (h : buf ≠ []) :
    nextMarker c buf 0 = 0 ↔ agrees c.sof buf = true := by
  rw [nextMarker, if_pos (List.length_pos_iff.mpr h), Nat.zero_add, List.drop_zero, markerScan_eq_zero_iff c.sof h]

/-- A plausible marker position at the head of a buffer as long as the marker is the whole marker. -/
theorem sof_prefix_of_nextMarker {c : Config} {buf : Bytes} (h : buf ≠ []) (hp : nextMarker c buf 0 = 0)
    (hs : c.sof.length ≤ buf.length) : c.sof <+: buf := by
  have hagree := (nextMarker_zero_eq_zero_iff c h).mp hp
  obtain hl | hr := (agrees_iff_prefix c.sof buf).mp hagree
  · exact hl
  · exact (hr.eq_of_length_le hs) ▸ List.prefix_rfl

end Sys2Proof
end

section
/-!
PROOFS. The Frame invariant (10_state.md R25), for what the decoder returns and for what ENCODE serialises.
-/

namespace Sys2Proof

/-- The wire form of a Frame (30_encoding.md R60): SOF, then the length field, the body and the check field, escaped. -/
def IsWireForm (c : Config) (f : Frame) (wire : Bytes) : Prop :=
  ∃ lenBytes chk, numToBytes f.length c.lw c.endian = some lenBytes ∧ numToBytes f.checksum c.cw c.endian = some chk ∧
    wire = c.sof ++ escape c (lenBytes ++ f.payload ++ chk)

/-- A Frame with a legal body whose two number fields are written in bytes, the length as R63 and the check as R67 computes it, is
valid. -/
theorem frameValid_of_fields {c : Config} {len : Nat} {lenBytes body chk : Bytes}
    (hlen : numToBytes len c.lw c.endian = some lenBytes) (hsum : (len : Int) = body.length + c.lenAdj)
    (hmin : c.opw ≤ body.length) (hmax : body.length ≤ c.maxBody)
    (hchk : numToBytes (checkFn c (lenBytes ++ body)) c.cw c.endian = some chk) :
    FrameValid c ⟨c.sof, len, body, checkFn c (lenBytes ++ body)⟩ where
  sof := rfl
  lengthWidth := (numToBytes_eq_some hlen).1
  payloadMin := hmin
  payloadMax := hmax
  checksumWidth := (numToBytes_eq_some hchk).1
  length := hsum
  checksum := ⟨lenBytes, hlen, rfl⟩

/-- Everything a Frame verdict says (41_decode.md R113): the bytes it judged are SOF and the escaped length field, body and check
field, the number in the length field is legal and names the body's length, and the check agrees. -/
theorem decodeFn_eq_frame {c : Config} {buf : Bytes} {f : Frame} {n : Nat} (h : decodeFn c buf = (.frame f, n)) :
    ∃ lenBytes body chk : Bytes, lenBytes.length = c.lw ∧ chk.length = c.cw ∧
      (body.length : Int) = bytesToNum lenBytes c.endian - c.lenAdj ∧ c.opw ≤ body.length ∧ body.length ≤ c.maxBody ∧
      bytesToNum chk c.endian = checkFn c (lenBytes ++ body) ∧
      f = ⟨c.sof, bytesToNum lenBytes c.endian, body, bytesToNum chk c.endian⟩ ∧
      n = c.sof.length + (escape c (lenBytes ++ body ++ chk)).length ∧
      buf = c.sof ++ escape c (lenBytes ++ body ++ chk) ++ buf.drop n := by
  obtain ⟨-, hd⟩ | ⟨-, -, hd⟩ | ⟨-, -, -, hd⟩ | ⟨hb, hp, hs, ⟨-, hd⟩ | ⟨-, hd⟩ | ⟨lenBytes, i1, hlen, ⟨-, hd⟩ |
    ⟨b, hbl, hmin, hmax, ⟨-, hd⟩ | ⟨-, hd⟩ | ⟨rest, i2, hrest, ⟨-, hd⟩ | ⟨hchk, hd⟩⟩⟩⟩⟩ := decodeFn_cases c buf <;>
    rw [hd] at h <;> cases h
  obtain ⟨hlw, hi1, hdrop1⟩ := take_eq_ok hlen
  obtain ⟨hk, hi2, hdrop2⟩ := take_eq_ok hrest
  have hsof : c.sof ++ buf.drop c.sof.length = buf :=
    List.prefix_iff_eq_append.mp (sof_prefix_of_nextMarker hb hp hs)
  have hbody : (rest.take b).length = b := by rw [List.length_take]; omega
  have hfields : escape c (lenBytes ++ rest.take b ++ rest.drop b) = escape c lenBytes ++ escape c rest := by
    rw [List.append_assoc, List.take_append_drop, escape_append]
  refine ⟨lenBytes, rest.take b, rest.drop b, hlw, by rw [List.length_drop]; omega, by rw [hbody, hbl], by omega, by omega,
    hchk, rfl, ?_, ?_⟩
  · rw [hfields, List.length_append]; omega
  · calc buf = c.sof ++ buf.drop c.sof.length := hsof.symm
      _ = c.sof ++ (escape c lenBytes ++ (escape c rest ++ buf.drop n)) := by rw [hdrop1, hdrop2]
      _ = c.sof ++ escape c (lenBytes ++ rest.take b ++ rest.drop b) ++ buf.drop n := by
        rw [hfields]; simp only [List.append_assoc]

/-- A Frame the decoder returns is valid, and the bytes consumed for it are its wire form. -/
theorem decodeFn_frame_valid {c : Config} {buf : Bytes} {f : Frame} {n : Nat} (h : decodeFn c buf = (.frame f, n)) :
    FrameValid c f ∧ IsWireForm c f (buf.take n) := by
  obtain ⟨lenBytes, body, chk, hlw, hcw, hbl, hmin, hmax, hsum, rfl, hn, hbuf⟩ := decodeFn_eq_frame h
  have hwire : buf.take n = c.sof ++ escape c (lenBytes ++ body ++ chk) := by
    rw [hbuf]
    exact List.take_left' (by rw [List.length_append, hn])
  have hlen := numToBytes_bytesToNum lenBytes c.endian
  have hchk := numToBytes_bytesToNum chk c.endian
  rw [hlw] at hlen
  rw [hcw] at hchk
  refine ⟨?_, lenBytes, chk, hlen, hchk, hwire⟩
  rw [hsum] at hchk ⊢
  exact frameValid_of_fields hlen (by omega) hmin hmax hchk

/-- What ENCODE serialises is the wire form of a valid Frame, whose accessors give the operands back. -/
theorem encodeFn_bytes_valid {c : Config} {op : Nat} {pl w : Bytes} (h : encodeFn c op pl = some (.bytes w)) :
    ∃ f, FrameValid c f ∧ frameOpcode c f = op ∧ frameMsg c f = pl ∧ IsWireForm c f w := by
  obtain ⟨-, he⟩ | ⟨-, -, he⟩ | ⟨-, hmax, ⟨opc, lenBytes, chk, hopc, hlen, hchk, he⟩ | he⟩ := encodeFn_cases c op pl <;>
    rw [he] at h <;> cases h
  obtain ⟨-, hopw, hnum⟩ := numToBytes_eq_some hopc
  obtain ⟨len, hsum, hlen⟩ := lengthField_eq_some hlen
  have hbody : (opc ++ pl).length = c.opw + pl.length := by rw [List.length_append, hopw]
  refine ⟨⟨c.sof, len, opc ++ pl, checkFn c (lenBytes ++ (opc ++ pl))⟩, ?_, ?_, ?_, lenBytes, chk, hlen, hchk, rfl⟩
  · exact frameValid_of_fields hlen (by rw [hbody, hsum]) (by omega) (by omega) hchk
  · rw [frameOpcode, ← hopw, List.take_left, hnum]
  · rw [frameMsg, ← hopw, List.drop_left]

/-- Settles O33: the Frame invariant from both sides, by what a Frame verdict says and by what ENCODE's success says. -/
theorem framesSatisfyTheFrameInvariant : Obligations.FramesSatisfyTheFrameInvariant := by
  intro c _
  refine ⟨fun buf f n h => decodeFn_frame_valid h, fun op pl w h => ?_⟩
  obtain ⟨f, hvalid, hop, hmsg, lenBytes, chk, hlen, hchk, hw⟩ := encodeFn_bytes_valid h
  exact ⟨f, lenBytes, chk, hvalid, hop, hmsg, hlen, hchk, hw⟩

end Sys2Proof
end

section
/-!
PROOFS. `num_to_bytes` and `bytes_to_num` as positional notation (30_encoding.md R64).
-/

namespace Sys2Proof

/-- Where the number fits, `num_to_bytes` little is the low bytes of it, least significant first. -/
theorem numToBytes_little {v w : Nat} (h : v < 2 ^ (8 * w)) : numToBytes v w .little = some (leBytes v w) := if_pos h

/-- Where the number fits, `num_to_bytes` big is the little one reversed. -/
theorem numToBytes_big {v w : Nat} (h : v < 2 ^ (8 * w)) : numToBytes v w .big = some (leBytes v w).reverse := if_pos h

/-- A number is never truncated to fit. -/
theorem numToBytes_eq_none {v w : Nat} (h : 2 ^ (8 * w) ≤ v) (e : Endian) : numToBytes v w e = none :=
  if_neg (Nat.not_lt.mpr h)

/-- Byte `i` of the little form is bits `8i+7 .. 8i` of the number. -/
theorem leBytes_getD {v w i : Nat} (h : i < w) : ((leBytes v w).getD i 0).toNat = v / 2 ^ (8 * i) % 2 ^ 8 := by
  induction w generalizing v i with
  | zero => omega
  | succ w ih =>
    cases i with
    | zero => simp [leBytes]
    | succ i =>
      calc ((leBytes v (w + 1)).getD (i + 1) 0).toNat = ((leBytes (v / 256) w).getD i 0).toNat := rfl
        _ = v / 256 / 2 ^ (8 * i) % 2 ^ 8 := ih (by omega)
        _ = v / 2 ^ (8 * (i + 1)) % 2 ^ 8 := by rw [Nat.div_div_eq_div_mul, two_pow_eight_mul_succ]

/-- The little reading of bytes is the sum of their values, each at the weight of its position. -/
theorem leNum_eq_sum (b : Bytes) :
    leNum b = ((List.range b.length).map fun i => (b.getD i 0).toNat * 2 ^ (8 * i)).sum := by
  induction b with
  | nil => rfl
  | cons x xs ih =>
    have weight (i : Nat) : (xs.getD i 0).toNat * 2 ^ (8 * (i + 1)) = 256 * ((xs.getD i 0).toNat * 2 ^ (8 * i)) := by
      rw [two_pow_eight_mul_succ, Nat.mul_left_comm]
    simp only [leNum, ih, List.length_cons, List.range_succ_eq_map, List.map_cons, List.map_map, List.sum_cons,
      Function.comp_def, List.getD_cons_zero, List.getD_cons_succ, Nat.succ_eq_add_one, weight, List.sum_map_mul_left,
      Nat.mul_zero, Nat.pow_zero, Nat.mul_one]

/-- Settles O22: the little form byte by byte, the big form as its reverse, and the reading as the sum of the positions. -/
theorem numToBytesIsPositional : Obligations.NumToBytesIsPositional := by
  refine ⟨fun v w => ⟨fun h => ?_, numToBytes_eq_none⟩, fun b => ⟨leNum_eq_sum b, rfl⟩, by decide, by decide⟩
  exact ⟨leBytes v w, numToBytes_little h, numToBytes_big h, leBytes_length v w, fun i => leBytes_getD⟩

end Sys2Proof
end

section
/-!
PROOFS. `take` reads back what `escape` wrote, wherever it stands (30_encoding.md R88); with escaping off it is plain slicing
(R92).
-/

namespace Sys2Proof

theorem take_off {c : Config} {buf : Bytes} {i k : Nat} (he : c.escEn = false) (h : i + k ≤ buf.length) :
    take c buf i k = .ok ((buf.drop i).take k) (i + k) := by
  rw [take, if_neg (by simp [he]), if_neg (by omega)]

theorem take_off_more {c : Config} {buf : Bytes} {i k : Nat} (he : c.escEn = false) (h : buf.length < i + k) :
    take c buf i k = .more := by
  rw [take, if_neg (by simp [he]), if_pos h]

/-- Settles O27: each function takes its branch for ESC_EN false. -/
theorem withoutEscapingWireBytesAreLogicalBytes : Obligations.WithoutEscapingWireBytesAreLogicalBytes :=
  fun _ he => ⟨escape_off he, fun _ _ _ => ⟨take_off he, take_off_more he⟩⟩

/-- The loop of `take` reads an escape pair as the byte it stands for. -/
theorem unescape_pair {c : Config} (k : Nat) {b : Byte} (hb : b ∈ c.escSet) (l : Bytes) :
    unescape c (k + 1) (c.esc :: (b ^^^ c.escXor) :: l) = (unescape c k l).cons b 2 := by
  have unmask : b ^^^ c.escXor ^^^ c.escXor = b := by rw [BitVec.xor_assoc, BitVec.xor_self, BitVec.xor_zero]
  simp [unescape, unmask, hb]

/-- The loop of `take` reads a byte outside ESC_SET as itself, ESC being in ESC_SET. -/
theorem unescape_plain {c : Config} (k : Nat) {b : Byte} (hesc : c.esc ∈ c.escSet) (hb : b ∉ c.escSet) (l : Bytes) :
    unescape c (k + 1) (b :: l) = (unescape c k l).cons b 1 := by
  have hne : b ≠ c.esc := fun h => hb (h ▸ hesc)
  rw [unescape.eq_def]
  simp only [if_neg hne, if_neg hb]

/-- The loop of `take` inverts `escape`, whatever follows. -/
theorem unescape_escapeAll {c : Config} (hesc : c.esc ∈ c.escSet) (x post : Bytes) :
    unescape c x.length (escapeAll c x ++ post) = .ok x (escapeAll c x).length := by
  induction x with
  | nil => simp
  | cons b bs ih =>
    by_cases hb : b ∈ c.escSet
    · simp [escapeByte_of_mem hb, unescape_pair _ hb, ih]; omega
    · simp [escapeByte_of_not_mem hb, unescape_plain _ hesc hb, ih]; omega

/-- `take` inverts `escape` wherever the escaped bytes stand and whatever follows them (30_encoding.md R89). -/
theorem take_escape {c : Config} (hc : c.wf = true) (pre x post : Bytes) :
    take c (pre ++ escape c x ++ post) pre.length x.length = .ok x (pre.length + (escape c x).length) := by
  cases he : c.escEn with
  | true =>
    obtain ⟨hesc, -⟩ := wf_escape hc he
    rw [take, if_pos he, List.append_assoc, List.drop_left, escape_on he, unescape_escapeAll hesc]
  | false => simp [take_off he, escape_off he]

end Sys2Proof
end

section
/-!
PROOFS. The length field is judged as soon as it is complete (30_encoding.md R70).
-/

namespace Sys2Proof

/-- A whole start marker at the head of a buffer is a plausible marker position. -/
theorem nextMarker_zero_of_sof_prefix {c : Config} {buf : Bytes} (h : buf ≠ []) (hs : c.sof <+: buf) :
    nextMarker c buf 0 = 0 :=
  (nextMarker_zero_eq_zero_iff c h).mpr ((agrees_iff_prefix c.sof buf).mpr (.inl hs))

/-- Behind a whole marker and a complete length field, the verdict is BadLength exactly where the body length is not legal. -/
theorem decodeFn_badLength_iff {c : Config} {buf lenBytes : Bytes} {i : Nat} (hb : buf ≠ []) (hs : c.sof <+: buf)
    (hlen : take c buf c.sof.length c.lw = .ok lenBytes i) :
    (decodeFn c buf).1 = .invalid .badLength ↔
      (bytesToNum lenBytes c.endian : Int) - c.lenAdj < c.opw ∨
        (c.maxBody : Int) < bytesToNum lenBytes c.endian - c.lenAdj := by
  have hp := nextMarker_zero_of_sof_prefix hb hs
  have hl := hs.length_le
  obtain ⟨hn, -⟩ | ⟨hm, -⟩ | ⟨-, -, hshort, -⟩ | ⟨-, -, -, ⟨ht, -⟩ | ⟨ht, -⟩ | ⟨lenBytes', i', ht, hcase⟩⟩ :=
    decodeFn_cases c buf
  · exact absurd hn hb
  · omega
  · omega
  · rw [ht] at hlen; cases hlen
  · rw [ht] at hlen; cases hlen
  · rw [hlen] at ht
    cases ht
    obtain ⟨hbad, hd⟩ | ⟨b, hbl, hmin, hmax, ⟨-, hd⟩ | ⟨-, hd⟩ | ⟨body, i2, -, ⟨-, hd⟩ | ⟨-, hd⟩⟩⟩ := hcase
    · simpa [hd] using hbad
    all_goals
      rw [hd]
      exact iff_of_false nofun (by omega)

/-- Settles O31: `take` reads the length field back whatever follows it, and the verdict is then the body length's. -/
theorem malformedLengthIsJudgedAtOnce : Obligations.MalformedLengthIsJudgedAtOnce := by
  intro c lenBytes rest hc hlw
  obtain ⟨hsof, -⟩ := wf_clauses hc
  have hbuf : c.sof ++ escape c lenBytes ++ rest ≠ [] := by
    refine List.ne_nil_of_length_pos ?_
    simp only [List.length_append]
    omega
  have hprefix : c.sof <+: c.sof ++ escape c lenBytes ++ rest := by
    rw [List.append_assoc]
    exact List.prefix_append _ _
  have htake := take_escape hc c.sof lenBytes rest
  rw [hlw] at htake
  have verdict := decodeFn_badLength_iff hbuf hprefix htake
  exact ⟨verdict.mpr, fun ⟨hmin, hmax⟩ h => by have := verdict.mp h; omega⟩

end Sys2Proof
end

section
/-!
PROOFS. What ENCODE returns (40_encode.md R100 to R103). Under a legal configuration each of its three number fields fits the
bytes it is written in (00_scope.md R14(c) and (d)), so the wire frame of a legal body always exists.
-/

namespace Sys2Proof

/-- A number that fits is always written. -/
theorem exists_numToBytes {v w : Nat} (h : v < 2 ^ (8 * w)) (e : Endian) : ∃ b, numToBytes v w e = some b := by
  cases e with
  | little => exact ⟨_, numToBytes_little h⟩
  | big => exact ⟨_, numToBytes_big h⟩

/-- Every legal body length has a length-field value that fits LW bytes (00_scope.md R14(c)). -/
theorem exists_lengthValue {c : Config} {n : Nat} (hc : c.wf = true) (hmin : c.opw ≤ n) (hmax : n ≤ c.maxBody) :
    ∃ v : Nat, (v : Int) = n + c.lenAdj ∧ v < 2 ^ (8 * c.lw) := by
  obtain ⟨-, -, -, -, -, -, -, hlow, hhigh, -⟩ := wf_clauses hc
  have hv : (((n + c.lenAdj).toNat : Nat) : Int) = n + c.lenAdj := Int.toNat_of_nonneg (by omega)
  refine ⟨(n + c.lenAdj).toNat, hv, ?_⟩
  zify
  omega

/-- The length field writes the body length plus LEN_ADJ, where that is a natural number (30_encoding.md R63). -/
theorem lengthField_eq {c : Config} {n v : Nat} (h : (v : Int) = n + c.lenAdj) :
    lengthField c n = numToBytes v c.lw c.endian := by
  simp only [lengthField]
  rw [← h, if_neg (by omega), Int.toNat_natCast]

/-- A CRC of `p.width` bits is a number of `p.width` bits. -/
theorem crcCheck_lt (p : CrcParams) (data : Bytes) : crcCheck p data < 2 ^ p.width :=
  BitVec.isLt (w := p.width) _

theorem xor8Check_lt (data : Bytes) : xor8Check data < 2 ^ 8 := (byteXor data).isLt

theorem sumCheck_lt (cw : Nat) (complement : Bool) (data : Bytes) : sumCheck cw complement data < 2 ^ (8 * cw) := by
  have hmod (n : Nat) : n % 2 ^ (8 * cw) < 2 ^ (8 * cw) := Nat.mod_lt _ (Nat.two_pow_pos _)
  cases complement with
  | true => exact hmod _
  | false => exact hmod _

/-- The check value fits CW bytes, whatever the check function (00_scope.md R14(d)). -/
theorem checkFn_lt {c : Config} (hc : c.wf = true) (data : Bytes) : checkFn c data < 2 ^ (8 * c.cw) := by
  have hcheck := wf_check hc
  unfold Config.wfCheck at hcheck
  cases h : c.check with
  | crc p =>
    simp only [h, Bool.and_eq_true, beq_iff_eq] at hcheck
    obtain ⟨⟨⟨hwidth, -⟩, -⟩, -⟩ := hcheck
    simpa only [checkFn, h, hwidth] using crcCheck_lt p data
  | sum complement => simpa only [checkFn, h] using sumCheck_lt c.cw complement data
  | xor8 =>
    simp only [h, beq_iff_eq] at hcheck
    simpa only [checkFn, h, hcheck] using xor8Check_lt data
  | vendor id => simpa only [checkFn, h] using Nat.mod_lt _ (Nat.two_pow_pos _)

theorem encodeFn_opcodeRange {c : Config} {op : Nat} (h : 2 ^ (8 * c.opw) ≤ op) (pl : Bytes) :
    encodeFn c op pl = some (.refused .opcodeRange) := if_pos h

theorem encodeFn_bodyTooLong {c : Config} {op : Nat} {pl : Bytes} (hop : op < 2 ^ (8 * c.opw))
    (h : c.maxBody < c.opw + pl.length) : encodeFn c op pl = some (.refused .bodyTooLong) := by
  rw [encodeFn, if_neg (by omega), if_pos h]

/-- Where the three number fields are defined, ENCODE returns SOF and the escaped fields of the frame (40_encode.md R100). -/
theorem encodeFn_of_fields {c : Config} {op : Nat} {pl opc lenBytes chk : Bytes} (hmax : c.opw + pl.length ≤ c.maxBody)
    (hopc : numToBytes op c.opw c.endian = some opc) (hlen : lengthField c (c.opw + pl.length) = some lenBytes)
    (hchk : numToBytes (checkFn c (lenBytes ++ opc ++ pl)) c.cw c.endian = some chk) :
    encodeFn c op pl = some (.bytes (c.sof ++ escape c (lenBytes ++ opc ++ pl ++ chk))) := by
  obtain ⟨hop, -⟩ := numToBytes_eq_some hopc
  rw [List.append_assoc] at hchk
  rw [encodeFn, if_neg (by omega), if_neg (by omega), hopc, hlen]
  simp only [hchk, List.append_assoc]

end Sys2Proof

namespace Sys2Proof.Machine

/-- Where `encodeFn` answers, ENCODE appends the answer to the returned values and changes nothing else. -/
theorem exec_encode_of_answer {s : State} {op : Nat} {pl : Bytes} {r : EncodeResult} (h : encodeFn s.cfg op pl = some r) :
    exec (.encode op pl) s = .next { s with returned := s.returned ++ [.encoded r] } := by
  rw [exec_encode, h]
  rfl

/-- Settles O4: `encodeFn` answers in each of the three ranges of the operands, the third because every field fits its width. -/
theorem encodeReturnsTheWireFrameOrRefuses : Obligations.EncodeReturnsTheWireFrameOrRefuses := by
  intro s op pl hc
  refine ⟨fun hop => exec_encode_of_answer (encodeFn_opcodeRange hop pl),
    fun hop hlong => exec_encode_of_answer (encodeFn_bodyTooLong hop hlong), fun hop hmax => ?_⟩
  obtain ⟨lval, hlval, hfits⟩ := exists_lengthValue hc (Nat.le_add_right _ pl.length) hmax
  obtain ⟨opc, hopc⟩ := exists_numToBytes hop s.cfg.endian
  obtain ⟨lenBytes, hlen⟩ := exists_numToBytes hfits s.cfg.endian
  obtain ⟨chk, hchk⟩ := exists_numToBytes (checkFn_lt hc (lenBytes ++ opc ++ pl)) s.cfg.endian
  have hwire := encodeFn_of_fields hmax hopc ((lengthField_eq hlval).trans hlen) hchk
  exact ⟨lval, opc, lenBytes, chk, hlval, hopc, hlen, hchk, exec_encode_of_answer hwire⟩

end Sys2Proof.Machine
end

section
/-!
PROOFS. `next_marker` (41_decode.md R112): it stops at a position that agrees with SOF as far as the buffer goes, and passes none.
-/

namespace Sys2Proof

/-- Two sequences agree if and only if they hold the same byte at every index both have. -/
theorem agrees_iff_getElem? (x y : Bytes) :
    agrees x y = true ↔ ∀ j, j < min x.length y.length → y[j]? = x[j]? := by
  induction x generalizing y with
  | nil => simp
  | cons a as ih =>
    cases y with
    | nil => simp [agrees]
    | cons b bs =>
      rw [agrees_cons, Bool.and_eq_true, beq_iff_eq, ih]
      constructor
      · rintro ⟨rfl, htail⟩ (_ | j) hj
        · rfl
        · exact htail j (by simp only [List.length_cons] at hj; omega)
      · intro hall
        have hhead : b = a := by simpa using hall 0 (by simp)
        refine ⟨hhead.symm, fun j hj => ?_⟩
        simpa using hall (j + 1) (by simp only [List.length_cons]; omega)

/-- A plausible marker position as R112 says it: the buffer agrees with the marker there as far as both go. -/
theorem agrees_drop_iff (sof buf : Bytes) (p : Nat) :
    agrees sof (buf.drop p) = true ↔ ∀ j, j < min sof.length (buf.length - p) → buf[p + j]? = sof[j]? := by
  simp only [agrees_iff_getElem?, List.length_drop, List.getElem?_drop]

/-- Where the scan stops before the end, it stops at a plausible position. -/
theorem agrees_drop_markerScan {sof l : Bytes} (h : markerScan sof l < l.length) :
    agrees sof (l.drop (markerScan sof l)) = true := by
  induction l with
  | nil => cases h
  | cons b bs ih =>
    unfold markerScan at h ⊢
    split
    · assumption
    · rw [if_neg ‹_›, List.length_cons] at h
      exact ih (by omega)

/-- The scan passes no plausible position. -/
theorem markerScan_le_of_agrees {sof l : Bytes} {p : Nat} (h : agrees sof (l.drop p) = true) : markerScan sof l ≤ p := by
  induction l generalizing p with
  | nil => exact Nat.zero_le p
  | cons b bs ih =>
    unfold markerScan
    split
    · exact Nat.zero_le p
    · cases p with
      | zero => contradiction
      | succ p => exact Nat.succ_le_succ (ih h)

theorem nextMarker_of_lt {c : Config} {buf : Bytes} {start : Nat} (h : start < buf.length) :
    nextMarker c buf start = start + markerScan c.sof (buf.drop start) := if_pos h

theorem nextMarker_of_length_le {c : Config} {buf : Bytes} {start : Nat} (h : buf.length ≤ start) :
    nextMarker c buf start = buf.length := if_neg (Nat.not_lt.mpr h)

theorem nextMarker_le_length (c : Config) (buf : Bytes) (start : Nat) : nextMarker c buf start ≤ buf.length := by
  obtain h | h := Nat.lt_or_ge start buf.length
  · have hscan := markerScan_le c.sof (buf.drop start)
    rw [List.length_drop] at hscan
    rw [nextMarker_of_lt h]
    omega
  · exact (nextMarker_of_length_le h).le

theorem le_nextMarker {c : Config} {buf : Bytes} {start : Nat} (h : start ≤ buf.length) : start ≤ nextMarker c buf start := by
  obtain hlt | hge := Nat.lt_or_ge start buf.length
  · rw [nextMarker_of_lt hlt]
    exact Nat.le_add_right _ _
  · rwa [nextMarker_of_length_le hge]

/-- A result before the end of the buffer is a plausible position. -/
theorem agrees_drop_nextMarker {c : Config} {buf : Bytes} {start : Nat} (h : nextMarker c buf start < buf.length) :
    agrees c.sof (buf.drop (nextMarker c buf start)) = true := by
  obtain hlt | hge := Nat.lt_or_ge start buf.length
  · rw [nextMarker_of_lt hlt] at h ⊢
    rw [← List.drop_drop]
    exact agrees_drop_markerScan (by rw [List.length_drop]; omega)
  · rw [nextMarker_of_length_le hge] at h
    exact absurd h (Nat.lt_irrefl _)

/-- `next_marker` passes no plausible position at or after the one it starts from. -/
theorem nextMarker_le_of_agrees {c : Config} {buf : Bytes} {start p : Nat} (hp : start ≤ p)
    (h : agrees c.sof (buf.drop p) = true) : nextMarker c buf start ≤ p := by
  obtain hlt | hge := Nat.lt_or_ge start buf.length
  · have hscan : markerScan c.sof (buf.drop start) ≤ p - start :=
      markerScan_le_of_agrees (by rwa [List.drop_drop, Nat.add_sub_cancel' hp])
    rw [nextMarker_of_lt hlt]
    omega
  · rw [nextMarker_of_length_le hge]
    omega

/-- Settles O29: the scan stays within the buffer, stops at a plausible position and passes none. -/
theorem nextMarkerIsTheFirstPlausiblePosition : Obligations.NextMarkerIsTheFirstPlausiblePosition := by
  intro c buf start hstart plausible
  refine ⟨le_nextMarker hstart, nextMarker_le_length c buf start, fun h => ?_, fun p hp hlt hplaus => ?_⟩
  · exact (agrees_drop_iff c.sof buf _).mp (agrees_drop_nextMarker h)
  · have hle := nextMarker_le_of_agrees hp ((agrees_drop_iff c.sof buf p).mpr hplaus)
    omega

end Sys2Proof
end

section
/-!
PROOFS. The outcomes of DECODE and what each consumes (41_decode.md R111, R114, R117).
-/

namespace Sys2Proof

/-- The reasons for which R113 rejects a candidate that stands at a plausible position and resyncs from index 1. -/
def InvalidReason.IsResync (r : InvalidReason) : Prop := r = .badLength ∨ r = .badChecksum ∨ r = .badEscape

/-- The outcomes of `decodeFn_cases` by what they consume: nothing, the bytes before a plausible position, the skip of a resync
behind a marker's worth of bytes, or a frame. -/
theorem decodeFn_outcomes (c : Config) (buf : Bytes) :
    decodeFn c buf = (.needMoreBytes, 0) ∨
    (0 < nextMarker c buf 0 ∧ decodeFn c buf = (.invalid .noMarker, nextMarker c buf 0)) ∨
    (buf ≠ [] ∧ c.sof.length ≤ buf.length ∧
      ∃ r : InvalidReason, r.IsResync ∧ decodeFn c buf = (.invalid r, nextMarker c buf 1)) ∨
    ∃ f n, decodeFn c buf = (.frame f, n) := by
  obtain ⟨-, hd⟩ | ⟨hp, -, hd⟩ | ⟨-, -, -, hd⟩ | ⟨hb, -, hs, ⟨-, hd⟩ | ⟨-, hd⟩ | ⟨_, _, -, ⟨-, hd⟩ | ⟨_, -, -, -,
    ⟨-, hd⟩ | ⟨-, hd⟩ | ⟨_, _, -, ⟨-, hd⟩ | ⟨-, hd⟩⟩⟩⟩⟩ := decodeFn_cases c buf
  · exact .inl hd
  · exact .inr (.inl ⟨hp, hd⟩)
  · exact .inl hd
  · exact .inl hd
  · exact .inr (.inr (.inl ⟨hb, hs, .badEscape, .inr (.inr rfl), hd⟩))
  · exact .inr (.inr (.inl ⟨hb, hs, .badLength, .inl rfl, hd⟩))
  · exact .inl hd
  · exact .inr (.inr (.inl ⟨hb, hs, .badEscape, .inr (.inr rfl), hd⟩))
  · exact .inr (.inr (.inl ⟨hb, hs, .badChecksum, .inr (.inl rfl), hd⟩))
  · exact .inr (.inr (.inr ⟨_, _, hd⟩))

/-- A frame consumes no more than there is: its wire form stands at the head of the buffer. -/
theorem decodeFn_frame_le_length {c : Config} {buf : Bytes} {f : Frame} {n : Nat} (h : decodeFn c buf = (.frame f, n)) :
    n ≤ buf.length := by
  obtain ⟨lenBytes, body, chk, -, -, -, -, -, -, -, hn, hbuf⟩ := decodeFn_eq_frame h
  have hlen := congrArg List.length hbuf
  simp only [List.length_append] at hlen
  omega

/-- A frame consumes exactly its wire form. -/
theorem decodeFn_frame_consumed {c : Config} {buf : Bytes} {f : Frame} {n : Nat} (h : decodeFn c buf = (.frame f, n)) :
    ∃ lenBytes chk, numToBytes f.length c.lw c.endian = some lenBytes ∧ numToBytes f.checksum c.cw c.endian = some chk ∧
      n = c.sof.length + (escape c (lenBytes ++ f.payload ++ chk)).length := by
  obtain ⟨-, lenBytes, chk, hlen, hchk, hwire⟩ := decodeFn_frame_valid h
  refine ⟨lenBytes, chk, hlen, hchk, ?_⟩
  rw [← List.length_append, ← hwire, List.length_take_of_le (decodeFn_frame_le_length h)]

/-- Settles O32: a frame by its wire form, the other outcomes by the position `next_marker` names. -/
theorem consumedCountsAreAsListed : Obligations.ConsumedCountsAreAsListed := by
  intro c buf v n hc h
  obtain hd | ⟨hp, hd⟩ | ⟨hb, -, r, hr, hd⟩ | ⟨f, n', hd⟩ := decodeFn_outcomes c buf <;> rw [hd] at h <;> cases h
  · rfl
  · exact ⟨rfl, hp, nextMarker_le_length c buf 0⟩
  · obtain rfl | rfl | rfl := hr <;> exact ⟨rfl, nextMarker_one_bounds c hb⟩
  · obtain ⟨hsof, -⟩ := wf_clauses hc
    obtain ⟨lenBytes, chk, hlen, hchk, hn⟩ := decodeFn_frame_consumed hd
    refine ⟨by omega, decodeFn_frame_le_length hd, ⟨lenBytes, chk, hlen, hchk, hn⟩, fun he => ?_⟩
    obtain ⟨-, hlw, -⟩ := numToBytes_eq_some hlen
    obtain ⟨-, hcw, -⟩ := numToBytes_eq_some hchk
    simp only [escape_off he, List.length_append] at hn
    omega

/-- `next_marker` does not pass bytes at the end of the buffer that begin a marker (41_decode.md R117). -/
theorem nextMarker_le_of_partial_marker {c : Config} {buf : Bytes} {start p m : Nat} (hp : start ≤ p)
    (h : buf.drop p = c.sof.take m) : nextMarker c buf start ≤ p :=
  nextMarker_le_of_agrees hp ((agrees_iff_prefix _ _).mpr (.inr (h ▸ List.take_prefix m c.sof)))

/-- A rejection does not consume a partial marker at the end of the buffer: where it resyncs, a whole marker's worth of bytes is
there, so the partial one begins at index 1 or later. -/
theorem decodeFn_invalid_le_of_partial_marker {c : Config} {buf : Bytes} {m : Nat} {r : InvalidReason}
    (hm : m < c.sof.length) (h : buf.drop (buf.length - m) = c.sof.take m) (hr : (decodeFn c buf).1 = .invalid r) :
    (decodeFn c buf).2 ≤ buf.length - m := by
  obtain hd | ⟨-, hd⟩ | ⟨-, hs, _, -, hd⟩ | ⟨_, _, hd⟩ := decodeFn_outcomes c buf <;> rw [hd] at hr ⊢
  · cases hr
  · exact nextMarker_le_of_partial_marker (Nat.zero_le _) h
  · exact nextMarker_le_of_partial_marker (by omega) h
  · cases hr

end Sys2Proof

namespace Sys2Proof.Machine

/-- Settles O30: neither `next_marker` nor a rejection reaches past the partial marker, so it ends the buffer DECODE leaves. -/
theorem partialMarkerAtTheEndIsKept : Obligations.PartialMarkerAtTheEndIsKept := by
  intro s m _ hm hlen hpart
  refine ⟨fun start hstart => nextMarker_le_of_partial_marker hstart hpart, fun t r ht hr => ?_⟩
  have hn := decodeFn_invalid_le_of_partial_marker hm hpart hr
  rw [exec_decode] at ht
  cases ht
  rw [ret_rxbuf, consume_rxbuf, List.length_drop, List.drop_drop, ← hpart]
  exact ⟨by omega, congrArg (s.rxbuf.drop ·) (by omega)⟩

/-- Settles O7: DECODE is one consumption of the judged bytes and one returned value, and the verdicts are those of R113. -/
theorem decodeConsumesWhatItJudged : Obligations.DecodeConsumesWhatItJudged := by
  intro s v n h
  constructor
  · rw [exec_decode, h]
    rfl
  · obtain hd | ⟨-, hd⟩ | ⟨-, -, r, hr, hd⟩ | ⟨f, n', hd⟩ := decodeFn_outcomes s.cfg s.rxbuf <;> rw [hd] at h <;> cases h
    · exact .inr (.inl rfl)
    · exact .inr (.inr (by simp))
    · obtain rfl | rfl | rfl := hr <;> exact .inr (.inr (by simp))
    · exact .inl ⟨f, rfl⟩

end Sys2Proof.Machine
end

section
/-!
PROOFS. An enabled PUSH (41_decode.md R110).
-/

namespace Sys2Proof.Machine

theorem fits_iff (cap : Option Nat) (n : Nat) : fits cap n = true ↔ ∀ k, cap = some k → n ≤ k := by
  cases cap <;> simp

/-- A PUSH is enabled if nothing is held before it and its bytes fit a bounded RXCAP. -/
theorem pushEnabled_iff (s : State) (bytes : Bytes) :
    s.pushEnabled bytes = true ↔
      s.rxHeld = [] ∧ ∀ cap, s.cfg.rxcap = some cap → s.rxbuf.length + bytes.length ≤ cap := by
  rw [State.pushEnabled, Bool.and_eq_true, List.isEmpty_iff, fits_iff]

/-- An enabled PUSH appends its bytes and changes nothing else. -/
theorem exec_push_of_fits {s : State} {bytes : Bytes} (hheld : s.rxHeld = [])
    (hfit : ∀ cap, s.cfg.rxcap = some cap → s.rxbuf.length + bytes.length ≤ cap) :
    exec (.push bytes) s = .next { s with rxbuf := s.rxbuf ++ bytes } := by
  rw [exec_push, receive_enabled ((pushEnabled_iff s bytes).mpr ⟨hheld, hfit⟩)]

/-- An enabled PUSH does the same in a run: the receive source holds nothing to deliver after it. -/
theorem perform_push_of_fits {s : State} {bytes : Bytes} (hheld : s.rxHeld = [])
    (hfit : ∀ cap, s.cfg.rxcap = some cap → s.rxbuf.length + bytes.length ≤ cap) :
    perform (.push bytes) s = .next { s with rxbuf := s.rxbuf ++ bytes } :=
  perform_next_iff.mpr ⟨_, exec_push_of_fits hheld hfit,
    (receiveTurn_of_nothing_held (s := { s with rxbuf := s.rxbuf ++ bytes }) hheld).symm⟩

/-- Two PUSHes that fit together append both byte sequences in their order. -/
theorem runInstrs_push_push {s : State} {a b : Bytes} (hheld : s.rxHeld = [])
    (hfit : ∀ cap, s.cfg.rxcap = some cap → s.rxbuf.length + (a ++ b).length ≤ cap) :
    runInstrs [.push a, .push b] s = .next { s with rxbuf := s.rxbuf ++ (a ++ b) } := by
  simp only [List.length_append] at hfit
  have first := perform_push_of_fits (bytes := a) hheld fun cap hcap => by have := hfit cap hcap; omega
  have second := perform_push_of_fits (s := { s with rxbuf := s.rxbuf ++ a }) (bytes := b) hheld fun cap hcap => by
    have := hfit cap hcap
    rw [List.length_append]
    omega
  rw [← List.append_assoc]
  exact runInstrs_cons_next_iff.mpr ⟨_, first, runInstrs_cons_next_iff.mpr ⟨_, second, runInstrs_nil _⟩⟩

/-- Settles O5: an enabled PUSH appends, so PUSH of nothing appends nothing and two PUSHes append what one of both does. -/
theorem pushAppendsItsBytes : Obligations.PushAppendsItsBytes := by
  intro s hheld
  refine ⟨fun bytes => exec_push_of_fits hheld, fun hfit => ?_, fun a b hfit => ?_⟩
  · rw [exec_push_of_fits (bytes := []) hheld hfit, List.append_nil]
  · rw [runInstrs_push_push hheld hfit, exec_push_of_fits hheld hfit]

end Sys2Proof.Machine
end

section
/-!
PROOFS. The loop of OBSERVE (42_observe.md R140): it ends under a legal configuration, and one iteration is one consumption.
-/

namespace Sys2Proof

@[simp] theorem eventOf_needMoreBytes (off : Nat) (raw : Bytes) : eventOf off raw .needMoreBytes = none := rfl

/-- Only NeedMoreBytes becomes no event. -/
theorem eventOf_eq_none_iff (off : Nat) (raw : Bytes) (v : Verdict) : eventOf off raw v = none ↔ v = .needMoreBytes := by
  cases v <;> simp [eventOf]

/-- A verdict that becomes an event consumes at least one byte and no more than there is (41_decode.md R114). -/
theorem decodeFn_consumed_bounds {c : Config} {buf : Bytes} (hc : c.wf = true) (h : (decodeFn c buf).1 ≠ .needMoreBytes) :
    1 ≤ (decodeFn c buf).2 ∧ (decodeFn c buf).2 ≤ buf.length := by
  obtain hd | ⟨hp, hd⟩ | ⟨hb, -, _, -, hd⟩ | ⟨f, n, hd⟩ := decodeFn_outcomes c buf
  · exact absurd (congrArg Prod.fst hd) h
  · rw [hd]
    exact ⟨hp, nextMarker_le_length c buf 0⟩
  · rw [hd]
    exact nextMarker_one_bounds c hb
  · have counts := consumedCountsAreAsListed c buf (.frame f) n hc hd
    rw [hd]
    exact ⟨counts.1, counts.2.1⟩

/-- A verdict that becomes an event leaves less to decode: the measure of the loop. -/
theorem length_drop_consumed_lt {c : Config} {buf raw : Bytes} {off : Nat} {e : Event} (hc : c.wf = true)
    (he : eventOf off raw (decodeFn c buf).1 = some e) : (buf.drop (decodeFn c buf).2).length < buf.length := by
  have hv : (decodeFn c buf).1 ≠ .needMoreBytes := fun h => by rw [h, eventOf_needMoreBytes] at he; cases he
  obtain ⟨hpos, hle⟩ := decodeFn_consumed_bounds hc hv
  rw [List.length_drop]
  omega

/-- The loop ends where nothing can be decoded. -/
theorem observeLoop_of_needMoreBytes {c : Config} {buf : Bytes} (h : (decodeFn c buf).1 = .needMoreBytes)
    (fuel off : Nat) : observeLoop c (fuel + 1) buf off = some ([], buf, off) := by
  rw [observeLoop_succ, h, eventOf_needMoreBytes]

/-- An iteration with an event puts it before what the loop returns behind the consumed bytes. -/
theorem observeLoop_of_event {c : Config} {fuel off : Nat} {buf : Bytes} {e : Event} {r : List Event × Bytes × Nat}
    (he : eventOf off (buf.take (decodeFn c buf).2) (decodeFn c buf).1 = some e)
    (hr : observeLoop c fuel (buf.drop (decodeFn c buf).2) (advanceOffset c off (decodeFn c buf).2) = some r) :
    observeLoop c (fuel + 1) buf off = some (e :: r.1, r.2) := by
  rw [observeLoop_succ, he, hr]

/-- Every iteration but the last consumes a byte, so more iterations than there are bytes reach the end of the loop, and
further ones change nothing. -/
theorem exists_observeLoop {c : Config} (hc : c.wf = true) (buf : Bytes) (off : Nat) :
    ∃ r, ∀ fuel, buf.length < fuel → observeLoop c fuel buf off = some r := by
  induction hn : buf.length using Nat.strong_induction_on generalizing buf off with
  | _ n ih =>
    subst hn
    cases he : eventOf off (buf.take (decodeFn c buf).2) (decodeFn c buf).1 with
    | none =>
      refine ⟨([], buf, off), fun fuel hfuel => ?_⟩
      obtain ⟨fuel, rfl⟩ := Nat.exists_eq_succ_of_ne_zero (Nat.ne_zero_of_lt hfuel)
      exact observeLoop_of_needMoreBytes ((eventOf_eq_none_iff _ _ _).mp he) fuel off
    | some e =>
      have hdrop := length_drop_consumed_lt hc he
      obtain ⟨r, hr⟩ := ih _ hdrop (buf.drop (decodeFn c buf).2) (advanceOffset c off (decodeFn c buf).2) rfl
      refine ⟨(e :: r.1, r.2), fun fuel hfuel => ?_⟩
      obtain ⟨fuel, rfl⟩ := Nat.exists_eq_succ_of_ne_zero (Nat.ne_zero_of_lt hfuel)
      exact observeLoop_of_event he (hr fuel (by omega))

/-- Under a legal configuration as many iterations as there are bytes, and one, are enough. -/
theorem observeLoop_eq_observeFn {c : Config} {fuel : Nat} {buf : Bytes} (hc : c.wf = true) (h : buf.length < fuel)
    (off : Nat) : observeLoop c fuel buf off = observeFn c buf off := by
  obtain ⟨r, hr⟩ := exists_observeLoop hc buf off
  rw [hr fuel h, observeFn, hr _ (Nat.lt_succ_self _)]

theorem exists_observeFn {c : Config} (hc : c.wf = true) (buf : Bytes) (off : Nat) : ∃ r, observeFn c buf off = some r := by
  obtain ⟨r, hr⟩ := exists_observeLoop hc buf off
  exact ⟨r, hr _ (Nat.lt_succ_self _)⟩

theorem observeFn_of_needMoreBytes {c : Config} {buf : Bytes} (h : (decodeFn c buf).1 = .needMoreBytes) (off : Nat) :
    observeFn c buf off = some ([], buf, off) := observeLoop_of_needMoreBytes h buf.length off

/-- The recursion equation of OBSERVE, free of the bound on its iterations. -/
theorem observeFn_of_event {c : Config} {buf : Bytes} {off : Nat} {e : Event} {r : List Event × Bytes × Nat}
    (hc : c.wf = true) (he : eventOf off (buf.take (decodeFn c buf).2) (decodeFn c buf).1 = some e)
    (hr : observeFn c (buf.drop (decodeFn c buf).2) (advanceOffset c off (decodeFn c buf).2) = some r) :
    observeFn c buf off = some (e :: r.1, r.2) :=
  observeLoop_of_event he ((observeLoop_eq_observeFn hc (length_drop_consumed_lt hc he) _).trans hr)

end Sys2Proof

namespace Sys2Proof.Machine

/-- OBSERVE returns the events of its loop and leaves the loop's buffer and offset. -/
theorem exec_observe_of_answer {s : State} {events : List Event} {buf : Bytes} {off : Nat}
    (h : observeFn s.cfg s.rxbuf s.rxoff = some (events, buf, off)) :
    exec .observe s = .next (State.ret { s with rxbuf := buf, rxoff := off } (.observed events)) := by
  rw [exec_observe, h]

/-- Settles O8: the loop ends because every event consumes a byte, it is at its end where no event is, and an event is one
consumption before the rest of the loop. -/
theorem observeDecodesEverythingThere : Obligations.ObserveDecodesEverythingThere := by
  intro s hc
  refine ⟨?_, fun hmore => ?_, fun e he => ?_⟩
  · obtain ⟨⟨es, buf, off⟩, hr⟩ := exists_observeFn hc s.rxbuf s.rxoff
    exact ⟨es, _, exec_observe_of_answer hr, rfl, rfl, rfl, rfl⟩
  · exact exec_observe_of_answer (observeFn_of_needMoreBytes hmore s.rxoff)
  · obtain ⟨⟨es, buf, off⟩, hr⟩ := exists_observeFn hc (s.consume (decodeFn s.cfg s.rxbuf).2).rxbuf
      (s.consume (decodeFn s.cfg s.rxbuf).2).rxoff
    exact ⟨es, _, exec_observe_of_answer hr, rfl, exec_observe_of_answer (observeFn_of_event hc he hr)⟩

end Sys2Proof.Machine
end

section
/-!
PROOFS. The operations of the environment: TIMEOUT and RESET (43_system.md R150 to R153).
-/

namespace Sys2Proof.Machine

/-- TIMEOUT finds nothing to drop on an empty buffer and where a verdict is ready. -/
theorem exec_timeout_of_not_stalled {s : State} (h : s.rxbuf = [] ∨ decodeFn s.cfg s.rxbuf ≠ (.needMoreBytes, 0)) :
    exec .timeout s = .next (s.ret (.timedOut .noAction 0 [])) := by
  obtain ⟨-, hexec⟩ | ⟨hbuf, hmore, -⟩ := exec_timeout_cases s
  · exact hexec
  · exact absurd h (not_or.mpr ⟨hbuf, not_not.mpr hmore⟩)

/-- TIMEOUT drops a stalled candidate up to the next plausible marker behind its first byte. -/
theorem exec_timeout_of_stalled {s : State} (hbuf : s.rxbuf ≠ []) (hmore : decodeFn s.cfg s.rxbuf = (.needMoreBytes, 0)) :
    exec .timeout s = .next ((s.consume (nextMarker s.cfg s.rxbuf 1)).ret
      (.timedOut (.invalid .stalled) (nextMarker s.cfg s.rxbuf 1) (s.rxbuf.take (nextMarker s.cfg s.rxbuf 1)))) := by
  obtain ⟨hidle, -⟩ | ⟨-, -, hexec⟩ := exec_timeout_cases s
  · exact absurd hidle (not_or.mpr ⟨hbuf, not_not.mpr hmore⟩)
  · exact hexec

/-- Settles O9: TIMEOUT by whether a candidate is stalled, and the bounds of the skip a resync takes. -/
theorem timeoutDropsOnlyAStalledCandidate : Obligations.TimeoutDropsOnlyAStalledCandidate := by
  refine fun s => ⟨fun hnil => ?_, fun hready => ?_, fun hbuf hmore => ?_⟩
  · exact exec_timeout_of_not_stalled (.inl hnil)
  · exact exec_timeout_of_not_stalled (.inr hready)
  · obtain ⟨hpos, hle⟩ := nextMarker_one_bounds s.cfg hbuf
    exact ⟨_, rfl, hpos, hle, exec_timeout_of_stalled hbuf hmore⟩

/-- Settles O10: what RESET writes does not depend on the state it finds. -/
theorem resetClearsBufferAndOffset : Obligations.ResetClearsBufferAndOffset := exec_reset

/-- A RESET changes nothing where buffer and offset are already the initial ones. -/
theorem exec_reset_of_cleared {s : State} (hbuf : s.rxbuf = []) (hoff : s.rxoff = 0) : exec .reset s = .next s := by
  rw [exec_reset, ← hbuf, ← hoff]

/-- Settles O11: the state a RESET leaves has buffer and offset cleared, so a second one finds nothing to change. -/
theorem resetIsIdempotent : Obligations.ResetIsIdempotent := by
  intro s
  exact ⟨_, exec_reset s, exec_reset_of_cleared rfl rfl, rfl, rfl, rfl⟩

end Sys2Proof.Machine
end

section
/-!
PROOFS. `take` in parts (30_encoding.md R88): what it reads first and what it reads after, what more bytes change, and what a
buffer looks like in which it wants more.
-/

namespace Sys2Proof

/-- Puts `out`, `n` wire bytes long, before an answer of `take`. -/
def Take.after (out : Bytes) (n : Nat) : Take → Take
  | .ok out' j => .ok (out ++ out') (n + j)
  | .more => .more
  | .bad => .bad

@[simp] theorem after_ok (out : Bytes) (n : Nat) (out' : Bytes) (j : Nat) :
    (Take.ok out' j).after out n = .ok (out ++ out') (n + j) := rfl
@[simp] theorem after_more (out : Bytes) (n : Nat) : Take.more.after out n = .more := rfl
@[simp] theorem after_bad (out : Bytes) (n : Nat) : Take.bad.after out n = .bad := rfl

@[simp] theorem after_nil (t : Take) : t.after [] 0 = t := by cases t <;> simp

@[simp] theorem cons_eq_more_iff {t : Take} {v : Byte} {n : Nat} : t.cons v n = .more ↔ t = .more := by
  cases t <;> simp
@[simp] theorem cons_eq_bad_iff {t : Take} {v : Byte} {n : Nat} : t.cons v n = .bad ↔ t = .bad := by
  cases t <;> simp
@[simp] theorem after_eq_more_iff {t : Take} {out : Bytes} {n : Nat} : t.after out n = .more ↔ t = .more := by
  cases t <;> simp
@[simp] theorem after_eq_bad_iff {t : Take} {out : Bytes} {n : Nat} : t.after out n = .bad ↔ t = .bad := by
  cases t <;> simp

theorem cons_after (t : Take) (v : Byte) (out : Bytes) (m n : Nat) :
    (t.after out n).cons v m = t.after (v :: out) (m + n) := by
  cases t <;> simp [Nat.add_assoc]

/-- The loop of `take` reads escaped bytes as what they stand for and goes on behind them. -/
theorem unescape_escapeAll_append {c : Config} (hesc : c.esc ∈ c.escSet) (x : Bytes) (k : Nat) (l : Bytes) :
    unescape c (x.length + k) (escapeAll c x ++ l) = (unescape c k l).after x (escapeAll c x).length := by
  induction x with
  | nil => simp
  | cons b bs ih =>
    rw [List.length_cons, Nat.succ_add, escapeAll_cons, List.append_assoc]
    by_cases hb : b ∈ c.escSet
    · rw [escapeByte_of_mem hb]
      simp [unescape_pair _ hb, ih, cons_after]
      exact congrArg (Take.after _ · _) (by omega)
    · rw [escapeByte_of_not_mem hb]
      simp [unescape_plain _ hesc hb, ih, cons_after]
      exact congrArg (Take.after _ · _) (by omega)

/-- The loop of `take` reads a byte that is neither ESC nor in ESC_SET as itself. -/
theorem unescape_raw {c : Config} (k : Nat) {b : Byte} (hne : b ≠ c.esc) (hb : b ∉ c.escSet) (l : Bytes) :
    unescape c (k + 1) (b :: l) = (unescape c k l).cons b 1 := by
  rw [unescape.eq_def]
  simp only [if_neg hne, if_neg hb]

/-- Where the loop of `take` wants more, the bytes are the escaped form of too few logical bytes, or that and a lone ESC. -/
theorem unescape_eq_more {c : Config} {k : Nat} {l : Bytes} (h : unescape c k l = .more) :
    ∃ out, out.length < k ∧ (l = escapeAll c out ∨ l = escapeAll c out ++ [c.esc]) := by
  induction k, l using unescape.induct (c := c) with
  | case1 l => simp only [unescape_zero] at h; cases h
  | case2 k => exact ⟨[], Nat.succ_pos k, .inl rfl⟩
  | case3 k => exact ⟨[], Nat.succ_pos k, .inr rfl⟩
  | case4 k x rest hx ih =>
    simp only [unescape, if_pos hx, if_true, cons_eq_more_iff] at h
    obtain ⟨out, hlen, hl⟩ := ih h
    have pair : escapeByte c (x ^^^ c.escXor) = [c.esc, x] := by
      rw [escapeByte_of_mem hx, BitVec.xor_assoc, BitVec.xor_self, BitVec.xor_zero]
    refine ⟨(x ^^^ c.escXor) :: out, Nat.succ_lt_succ hlen, ?_⟩
    rw [escapeAll_cons, pair]
    exact hl.imp (congrArg (c.esc :: x :: ·)) (congrArg (c.esc :: x :: ·))
  | case5 k x rest hx => simp [unescape, hx] at h
  | case6 k b rest hb hs => simp [unescape, hb, hs] at h
  | case7 k b rest hb hs ih =>
    rw [unescape_raw k hb hs, cons_eq_more_iff] at h
    obtain ⟨out, hlen, hl⟩ := ih h
    refine ⟨b :: out, Nat.succ_lt_succ hlen, ?_⟩
    rw [escapeAll_cons, escapeByte_of_not_mem hs]
    exact hl.imp (congrArg (b :: ·)) (congrArg (b :: ·))

/-- The loop of `take` rejects a byte that must not stand raw. -/
theorem unescape_marker {c : Config} (k : Nat) {b : Byte} (hne : b ≠ c.esc) (hb : b ∈ c.escSet) (l : Bytes) :
    unescape c (k + 1) (b :: l) = .bad := by
  rw [unescape.eq_def]
  simp only [if_neg hne, if_pos hb]

/-- The loop of `take` rejects a partner of ESC that no member of ESC_SET is sent as. -/
theorem unescape_bad_pair {c : Config} (k : Nat) {b : Byte} (hb : b ^^^ c.escXor ∉ c.escSet) (l : Bytes) :
    unescape c (k + 1) (c.esc :: b :: l) = .bad := by
  simp [unescape, hb]

/-- An escaped byte does not end in ESC: the mask takes ESC out of ESC_SET. -/
theorem getLast?_escapeAll_ne_esc {c : Config} (hc : c.wf = true) (he : c.escEn = true) (x : Bytes) :
    (escapeAll c x).getLast? ≠ some c.esc := by
  obtain ⟨hesc, -, -, hmask⟩ := wf_escape hc he
  induction x using List.reverseRecOn with
  | nil => simp
  | append_singleton xs b =>
    rw [escapeAll_append, escapeAll_cons, escapeAll_nil, List.append_nil]
    by_cases hb : b ∈ c.escSet
    · have hne : b ^^^ c.escXor ≠ c.esc := fun h => hmask b hb (h ▸ hesc)
      simpa [escapeByte_of_mem hb] using hne
    · have hne : b ≠ c.esc := fun h => hb (h ▸ hesc)
      simpa [escapeByte_of_not_mem hb] using hne

/-- An illegal escape behind bytes in which `take` wants more: a raw member of ESC_SET other than ESC where no ESC waits for its
partner, or a partner that no member of ESC_SET is sent as (30_encoding.md R94(c)). -/
def IllegalEscape (c : Config) (l : Bytes) (b : Byte) : Prop :=
  (l.getLast? ≠ some c.esc ∧ b ≠ c.esc ∧ b ∈ c.escSet) ∨ (l.getLast? = some c.esc ∧ b ^^^ c.escXor ∉ c.escSet)

/-- Where the loop of `take` wants more, an illegal escape is rejected as soon as it is there. -/
theorem unescape_append_of_illegalEscape {c : Config} (hc : c.wf = true) (he : c.escEn = true) {k : Nat} {l : Bytes} {b : Byte}
    (h : unescape c k l = .more) (hb : IllegalEscape c l b) (t : Bytes) : unescape c k (l ++ b :: t) = .bad := by
  obtain ⟨hesc, -⟩ := wf_escape hc he
  obtain ⟨out, hlen, hl⟩ := unescape_eq_more h
  have hlast := getLast?_escapeAll_ne_esc hc he out
  obtain ⟨m, rfl⟩ : ∃ m, k = out.length + (m + 1) := ⟨k - out.length - 1, by omega⟩
  obtain rfl | rfl := hl
  · obtain ⟨-, hne, hmem⟩ | ⟨hwait, -⟩ := hb
    · rw [unescape_escapeAll_append hesc, unescape_marker m hne hmem, after_bad]
    · exact absurd hwait hlast
  · obtain ⟨hwait, -⟩ | ⟨-, hpartner⟩ := hb
    · simp at hwait
    · rw [List.append_assoc, unescape_escapeAll_append hesc]
      exact after_eq_bad_iff.mpr (unescape_bad_pair m hpartner t)

theorem take_on {c : Config} (he : c.escEn = true) (buf : Bytes) (i k : Nat) :
    take c buf i k = (unescape c k (buf.drop i)).after [] i := by
  rw [take, if_pos he]
  cases unescape c k (buf.drop i) <;> rfl

/-- `take` of `k + m` logical bytes is `take` of `k` and then of `m`. -/
theorem take_add {c : Config} (hc : c.wf = true) {buf out : Bytes} {i j k : Nat} (h : take c buf i k = .ok out j) (m : Nat) :
    take c buf i (k + m) = (take c buf j m).after out 0 := by
  cases he : c.escEn with
  | true =>
    obtain ⟨hesc, -⟩ := wf_escape hc he
    obtain ⟨rfl, rfl, hdrop⟩ := take_eq_ok h
    rw [escape_on he] at hdrop ⊢
    rw [take_on he, hdrop, unescape_escapeAll_append hesc, take_on he]
    cases unescape c m (buf.drop (i + (escapeAll c out).length)) <;> simp [Nat.add_assoc]
  | false =>
    by_cases hk : i + k ≤ buf.length
    · rw [take_off he hk] at h
      cases h
      by_cases hm : i + k + m ≤ buf.length
      · have hkm : i + (k + m) ≤ buf.length := by omega
        simp [take_off he hm, take_off he hkm, List.take_add, Nat.add_assoc]
      · rw [take_off_more he (by omega), take_off_more he (by omega), after_more]
    · rw [take_off_more he (by omega)] at h
      cases h

/-- More bytes do not change what `take` has read. -/
theorem take_append_of_ok {c : Config} (hc : c.wf = true) {buf out : Bytes} {i j k : Nat} (hi : i ≤ buf.length)
    (h : take c buf i k = .ok out j) (t : Bytes) : take c (buf ++ t) i k = .ok out j := by
  obtain ⟨rfl, rfl, hdrop⟩ := take_eq_ok h
  have hbuf : buf ++ t = buf.take i ++ escape c out ++ (buf.drop (i + (escape c out).length) ++ t) := by
    calc buf ++ t = buf.take i ++ buf.drop i ++ t := by rw [List.take_append_drop]
      _ = _ := by rw [hdrop]; simp only [List.append_assoc]
  have hread := take_escape hc (buf.take i) out (buf.drop (i + (escape c out).length) ++ t)
  rwa [← hbuf, List.length_take_of_le hi] at hread

/-- What `take` has read ends within the buffer. -/
theorem take_ok_bounds {c : Config} {buf out : Bytes} {i j k : Nat} (hi : i ≤ buf.length) (h : take c buf i k = .ok out j) :
    i ≤ j ∧ j ≤ buf.length := by
  obtain ⟨-, hj, hdrop⟩ := take_eq_ok h
  have hlen := congrArg List.length hdrop
  simp only [List.length_append, List.length_drop] at hlen
  omega

/-- The loop of `take` rejects the first illegal escape, however many more bytes are wanted and whatever follows. -/
theorem unescape_bad_mono {c : Config} {k : Nat} {l : Bytes} (h : unescape c k l = .bad) (m : Nat) (t : Bytes) :
    unescape c (k + m) (l ++ t) = .bad := by
  induction k, l using unescape.induct (c := c) with
  | case1 l => simp only [unescape_zero] at h; cases h
  | case2 k => cases h
  | case3 k => simp [unescape] at h
  | case4 k x rest hx ih =>
    simp only [unescape, List.cons_append, Nat.succ_add, if_pos hx, if_true, cons_eq_bad_iff] at h ⊢
    exact ih h
  | case5 k x rest hx =>
    rw [Nat.succ_add]
    exact unescape_bad_pair _ hx _
  | case6 k b rest hb hs =>
    rw [Nat.succ_add]
    exact unescape_marker _ hb hs _
  | case7 k b rest hb hs ih =>
    rw [unescape_raw k hb hs, cons_eq_bad_iff] at h
    rw [Nat.succ_add, List.cons_append, unescape_raw _ hb hs, cons_eq_bad_iff]
    exact ih h

/-- Neither more bytes in the buffer nor more bytes wanted change that `take` rejects. -/
theorem take_bad_mono {c : Config} {buf : Bytes} {i k : Nat} (hi : i ≤ buf.length) (h : take c buf i k = .bad) (m : Nat)
    (t : Bytes) : take c (buf ++ t) i (k + m) = .bad := by
  cases he : c.escEn with
  | true =>
    rw [take_on he, after_eq_bad_iff] at h ⊢
    rw [List.drop_append_of_le_length hi]
    exact unescape_bad_mono h m t
  | false =>
    by_cases hk : i + k ≤ buf.length
    · rw [take_off he hk] at h; cases h
    · rw [take_off_more he (by omega)] at h; cases h

/-- More bytes do not change that `take` rejects. -/
theorem take_append_of_bad {c : Config} {buf : Bytes} {i k : Nat} (hi : i ≤ buf.length) (h : take c buf i k = .bad)
    (t : Bytes) : take c (buf ++ t) i k = .bad := take_bad_mono hi h 0 t

/-- Where `take` wants more of two parts, it wants more of the first, or reads the first and wants more of the second. -/
theorem take_add_eq_more {c : Config} (hc : c.wf = true) {buf : Bytes} {i k m : Nat} (hi : i ≤ buf.length)
    (h : take c buf i (k + m) = .more) :
    take c buf i k = .more ∨ ∃ out j, take c buf i k = .ok out j ∧ take c buf j m = .more := by
  cases hk : take c buf i k with
  | more => exact .inl rfl
  | bad =>
    have hbad := take_bad_mono hi hk m []
    rw [List.append_nil, h] at hbad
    cases hbad
  | ok out j =>
    rw [take_add hc hk, after_eq_more_iff] at h
    exact .inr ⟨out, j, rfl, h⟩

theorem escapeByte_length (c : Config) (b : Byte) : 1 ≤ (escapeByte c b).length ∧ (escapeByte c b).length ≤ 2 := by
  unfold escapeByte
  split <;> simp

theorem escapeAll_length (c : Config) (x : Bytes) : x.length ≤ (escapeAll c x).length ∧ (escapeAll c x).length ≤ 2 * x.length := by
  induction x with
  | nil => simp
  | cons b bs ih =>
    have hb := escapeByte_length c b
    simp only [escapeAll_cons, List.length_append, List.length_cons]
    omega

/-- Escaping sends each logical byte as one or two wire bytes. -/
theorem escape_length (c : Config) (x : Bytes) : x.length ≤ (escape c x).length ∧ (escape c x).length ≤ 2 * x.length := by
  cases he : c.escEn with
  | true => simpa only [escape_on he] using escapeAll_length c x
  | false => rw [escape_off he]; omega

/-- Where `take` wants more, the buffer holds fewer wire bytes than the logical bytes it wants can take. -/
theorem length_lt_of_take_more {c : Config} {buf : Bytes} {i k : Nat} (h : take c buf i k = .more) :
    buf.length < i + (if c.escEn then 2 else 1) * k := by
  cases he : c.escEn with
  | true =>
    rw [take_on he, after_eq_more_iff] at h
    obtain ⟨out, hlen, hl⟩ := unescape_eq_more h
    have hout := escapeAll_length c out
    have hdrop : (buf.drop i).length ≤ (escapeAll c out).length + 1 := by obtain hl | hl := hl <;> simp [hl]
    rw [List.length_drop] at hdrop
    simp only [if_true]
    omega
  | false =>
    by_cases hk : i + k ≤ buf.length
    · rw [take_off he hk] at h; cases h
    · simp; omega

/-- `take` of at least one byte from the end of the buffer wants more. -/
theorem take_at_end {c : Config} {buf : Bytes} {k : Nat} (hk : 1 ≤ k) : take c buf buf.length k = .more := by
  cases he : c.escEn with
  | true =>
    obtain ⟨k, rfl⟩ := Nat.exists_eq_add_of_le' hk
    rw [take_on he, List.drop_length, unescape_nil, after_more]
  | false => exact take_off_more he (by omega)

end Sys2Proof
end

section
/-!
PROOFS. `decode_fn` on a buffer that begins with the whole marker (41_decode.md R113): one equation per step, then the equations
for a buffer that holds all fields of a frame.
-/

namespace Sys2Proof

/-- The length field `lenBytes` gives the legal body length `b` (30_encoding.md R63, R70). -/
structure LegalLength (c : Config) (lenBytes : Bytes) (b : Nat) : Prop where
  eq : (b : Int) = bytesToNum lenBytes c.endian - c.lenAdj
  min : c.opw ≤ b
  max : b ≤ c.maxBody

/-- The logical bytes of the three fields behind the marker, the first giving the length of the second (30_encoding.md R60). -/
structure FrameFields (c : Config) (lenBytes body chk : Bytes) : Prop where
  lengthWidth : lenBytes.length = c.lw
  legal : LegalLength c lenBytes body.length
  checkWidth : chk.length = c.cw

theorem sof_ne_nil {c : Config} (hc : c.wf = true) : c.sof ≠ [] := by
  obtain ⟨hsof, -⟩ := wf_clauses hc
  exact List.ne_nil_of_length_pos hsof

theorem ne_nil_of_sof_prefix {c : Config} {buf : Bytes} (hc : c.wf = true) (hs : c.sof <+: buf) : buf ≠ [] := by
  rintro rfl
  exact sof_ne_nil hc (List.prefix_nil.mp hs)

/-- Behind the whole marker the first three steps of R113 pass on. -/
theorem decodeFn_guards {c : Config} {buf : Bytes} (hc : c.wf = true) (hs : c.sof <+: buf) :
    ¬ buf.length = 0 ∧ ¬ nextMarker c buf 0 > 0 ∧ ¬ buf.length < c.sof.length := by
  have hb := ne_nil_of_sof_prefix hc hs
  have hp := nextMarker_zero_of_sof_prefix hb hs
  have hl := hs.length_le
  have hpos := List.length_pos_iff.mpr hb
  omega

section
variable {c : Config} {buf : Bytes} (hc : c.wf = true) (hs : c.sof <+: buf)
include hc hs

theorem decodeFn_of_length_more (hlen : take c buf c.sof.length c.lw = .more) : decodeFn c buf = (.needMoreBytes, 0) := by
  obtain ⟨h0, hp, hl⟩ := decodeFn_guards hc hs
  rw [decodeFn, if_neg h0, if_neg hp, if_neg hl, hlen]

theorem decodeFn_of_length_bad (hlen : take c buf c.sof.length c.lw = .bad) :
    decodeFn c buf = (.invalid .badEscape, nextMarker c buf 1) := by
  obtain ⟨h0, hp, hl⟩ := decodeFn_guards hc hs
  rw [decodeFn, if_neg h0, if_neg hp, if_neg hl, hlen]

variable {lenBytes : Bytes} {i : Nat} (hlen : take c buf c.sof.length c.lw = .ok lenBytes i)
include hlen

theorem decodeFn_of_illegal_length (hb : (bytesToNum lenBytes c.endian : Int) - c.lenAdj < c.opw ∨
    (c.maxBody : Int) < bytesToNum lenBytes c.endian - c.lenAdj) :
    decodeFn c buf = (.invalid .badLength, nextMarker c buf 1) := by
  obtain ⟨h0, hp, hl⟩ := decodeFn_guards hc hs
  rw [decodeFn, if_neg h0, if_neg hp, if_neg hl, hlen]
  simp only [gt_iff_lt, if_pos hb]

variable {b : Nat} (hb : LegalLength c lenBytes b)
include hb

theorem decodeFn_of_body_more (hbody : take c buf i (b + c.cw) = .more) : decodeFn c buf = (.needMoreBytes, 0) := by
  obtain ⟨h0, hp, hl⟩ := decodeFn_guards hc hs
  obtain ⟨heq, hmin, hmax⟩ := hb
  rw [decodeFn, if_neg h0, if_neg hp, if_neg hl, hlen]
  simp only [← heq, Int.toNat_natCast, hbody]
  rw [if_neg (by omega)]

theorem decodeFn_of_body_bad (hbody : take c buf i (b + c.cw) = .bad) :
    decodeFn c buf = (.invalid .badEscape, nextMarker c buf 1) := by
  obtain ⟨h0, hp, hl⟩ := decodeFn_guards hc hs
  obtain ⟨heq, hmin, hmax⟩ := hb
  rw [decodeFn, if_neg h0, if_neg hp, if_neg hl, hlen]
  simp only [← heq, Int.toNat_natCast, hbody]
  rw [if_neg (by omega)]

variable {rest : Bytes} {j : Nat} (hbody : take c buf i (b + c.cw) = .ok rest j)
include hbody

theorem decodeFn_of_check_ne (hchk : bytesToNum (rest.drop b) c.endian ≠ checkFn c (lenBytes ++ rest.take b)) :
    decodeFn c buf = (.invalid .badChecksum, nextMarker c buf 1) := by
  obtain ⟨h0, hp, hl⟩ := decodeFn_guards hc hs
  obtain ⟨heq, hmin, hmax⟩ := hb
  rw [decodeFn, if_neg h0, if_neg hp, if_neg hl, hlen]
  simp only [← heq, Int.toNat_natCast, hbody, if_pos hchk]
  rw [if_neg (by omega)]

theorem decodeFn_of_check_eq (hchk : bytesToNum (rest.drop b) c.endian = checkFn c (lenBytes ++ rest.take b)) :
    decodeFn c buf = (.frame ⟨c.sof, bytesToNum lenBytes c.endian, rest.take b, bytesToNum (rest.drop b) c.endian⟩, j) := by
  obtain ⟨h0, hp, hl⟩ := decodeFn_guards hc hs
  obtain ⟨heq, hmin, hmax⟩ := hb
  rw [decodeFn, if_neg h0, if_neg hp, if_neg hl, hlen]
  simp only [← heq, Int.toNat_natCast, hbody, if_neg (not_not.mpr hchk)]
  rw [if_neg (by omega)]

end

/-- `take` reads a field off the escaped region, wherever in it the field stands and whatever follows. -/
theorem take_field {c : Config} (hc : c.wf = true) (x y z t : Bytes) :
    take c (c.sof ++ escape c (x ++ y ++ z) ++ t) (c.sof.length + (escape c x).length) y.length =
      .ok y (c.sof.length + (escape c (x ++ y)).length) := by
  have hread := take_escape hc (c.sof ++ escape c x) y (escape c z ++ t)
  rw [List.length_append] at hread
  simpa only [escape_append, List.append_assoc, List.length_append, Nat.add_assoc] using hread

/-- `take` reads the first field of the escaped region. -/
theorem take_first_field {c : Config} (hc : c.wf = true) (x y t : Bytes) :
    take c (c.sof ++ escape c (x ++ y) ++ t) c.sof.length x.length = .ok x (c.sof.length + (escape c x).length) := by
  have hread := take_escape hc c.sof x (escape c y ++ t)
  simpa only [escape_append, List.append_assoc] using hread

theorem sof_prefix_append (c : Config) (x t : Bytes) : c.sof <+: c.sof ++ x ++ t := by
  rw [List.append_assoc]
  exact List.prefix_append _ _

/-- What `decode_fn` reads off the fields of a frame, whatever follows. -/
theorem take_fields {c : Config} {lenBytes body chk : Bytes} (hc : c.wf = true) (h : FrameFields c lenBytes body chk)
    (t : Bytes) :
    take c (c.sof ++ escape c (lenBytes ++ body ++ chk) ++ t) c.sof.length c.lw =
      .ok lenBytes (c.sof.length + (escape c lenBytes).length) ∧
    take c (c.sof ++ escape c (lenBytes ++ body ++ chk) ++ t) (c.sof.length + (escape c lenBytes).length)
      (body.length + c.cw) = .ok (body ++ chk) (c.sof.length + (escape c (lenBytes ++ body ++ chk)).length) := by
  have first := take_first_field hc lenBytes (body ++ chk) t
  have second := take_field hc lenBytes (body ++ chk) [] t
  rw [h.lengthWidth, ← List.append_assoc] at first
  rw [List.length_append, h.checkWidth, List.append_nil, ← List.append_assoc] at second
  exact ⟨first, second⟩

/-- A frame whose check field is the check value of its length and body is returned, whatever follows it (41_decode.md R113). -/
theorem decodeFn_of_good_check {c : Config} {lenBytes body chk : Bytes} (hc : c.wf = true) (h : FrameFields c lenBytes body chk)
    (hchk : bytesToNum chk c.endian = checkFn c (lenBytes ++ body)) (t : Bytes) :
    decodeFn c (c.sof ++ escape c (lenBytes ++ body ++ chk) ++ t) =
      (.frame ⟨c.sof, bytesToNum lenBytes c.endian, body, bytesToNum chk c.endian⟩,
        (c.sof ++ escape c (lenBytes ++ body ++ chk)).length) := by
  obtain ⟨first, second⟩ := take_fields hc h t
  have hframe := decodeFn_of_check_eq hc (sof_prefix_append c _ t) first h.legal second
  rw [List.take_left, List.drop_left] at hframe
  rw [hframe hchk, List.length_append]

/-- A frame whose check field is another value is rejected, whatever follows it (41_decode.md R113). -/
theorem decodeFn_of_bad_check {c : Config} {lenBytes body chk : Bytes} (hc : c.wf = true) (h : FrameFields c lenBytes body chk)
    (hchk : bytesToNum chk c.endian ≠ checkFn c (lenBytes ++ body)) (t : Bytes) :
    decodeFn c (c.sof ++ escape c (lenBytes ++ body ++ chk) ++ t) =
      (.invalid .badChecksum, nextMarker c (c.sof ++ escape c (lenBytes ++ body ++ chk) ++ t) 1) := by
  obtain ⟨first, second⟩ := take_fields hc h t
  have hreject := decodeFn_of_check_ne hc (sof_prefix_append c _ t) first h.legal second
  rw [List.take_left, List.drop_left] at hreject
  exact hreject hchk

end Sys2Proof
end

section
/-!
PROOFS. What ENCODE returns decodes to its frame (40_encode.md R105).
-/

namespace Sys2Proof

/-- Everything a success of ENCODE says: the operands are legal, and the bytes are SOF and the escaped fields, the check field
being the check value of the other two. -/
theorem encodeFn_eq_bytes {c : Config} {op : Nat} {pl w : Bytes} (h : encodeFn c op pl = some (.bytes w)) :
    ∃ opc lenBytes chk, numToBytes op c.opw c.endian = some opc ∧ FrameFields c lenBytes (opc ++ pl) chk ∧
      bytesToNum chk c.endian = checkFn c (lenBytes ++ (opc ++ pl)) ∧
      w = c.sof ++ escape c (lenBytes ++ (opc ++ pl) ++ chk) := by
  obtain ⟨-, he⟩ | ⟨-, -, he⟩ | ⟨-, hmax, ⟨opc, lenBytes, chk, hopc, hlen, hchk, he⟩ | he⟩ := encodeFn_cases c op pl <;>
    rw [he] at h <;> cases h
  obtain ⟨-, hopw, -⟩ := numToBytes_eq_some hopc
  obtain ⟨len, hsum, hlen⟩ := lengthField_eq_some hlen
  obtain ⟨-, hlw, hnum⟩ := numToBytes_eq_some hlen
  obtain ⟨-, hcw, hcheck⟩ := numToBytes_eq_some hchk
  have hbody : (opc ++ pl).length = c.opw + pl.length := by rw [List.length_append, hopw]
  exact ⟨opc, lenBytes, chk, hopc, ⟨hlw, ⟨by rw [hnum, hbody]; omega, by omega, by omega⟩, hcw⟩, hcheck, rfl⟩

/-- Settles O35: the fields ENCODE serialises are those of a frame with a good check. -/
theorem encodedFramesDecodeBack : Obligations.EncodedFramesDecodeBack := by
  intro c op pl w hc h
  obtain ⟨opc, lenBytes, chk, hopc, hfields, hchk, rfl⟩ := encodeFn_eq_bytes h
  obtain ⟨-, hopw, -⟩ := numToBytes_eq_some hopc
  have hlen := numToBytes_bytesToNum lenBytes c.endian
  have hlegal := hfields.legal.eq
  rw [hfields.lengthWidth] at hlen
  rw [List.length_append, hopw] at hlegal
  refine ⟨⟨c.sof, bytesToNum lenBytes c.endian, opc ++ pl, bytesToNum chk c.endian⟩, rfl, ?_, ?_, ?_, ⟨lenBytes, hlen, hchk⟩,
    decodeFn_of_good_check hc hfields hchk⟩
  · simp only
    omega
  · rw [hopc, ← hopw, List.take_left]
  · rw [← hopw, List.drop_left]

/-- The frame ENCODE's bytes decode to, by its accessors. -/
theorem exists_decodeFn_of_encodeFn {c : Config} {op : Nat} {pl w : Bytes} (hc : c.wf = true)
    (h : encodeFn c op pl = some (.bytes w)) :
    ∃ f, frameOpcode c f = op ∧ frameMsg c f = pl ∧ ∀ t, decodeFn c (w ++ t) = (.frame f, w.length) := by
  obtain ⟨f, -, -, hop, hmsg, -, hdecode⟩ := encodedFramesDecodeBack c op pl w hc h
  obtain ⟨-, -, hnum⟩ := numToBytes_eq_some hop
  exact ⟨f, hnum, hmsg, hdecode⟩

/-- The wire length of a frame: what stands before the escaped region, and each logical byte behind it once or twice. -/
theorem encodeFn_length {c : Config} {op : Nat} {pl w : Bytes} (h : encodeFn c op pl = some (.bytes w)) :
    ∃ x : Bytes, x.length = c.lw + (c.opw + pl.length) + c.cw ∧ w = c.sof ++ escape c x := by
  obtain ⟨opc, lenBytes, chk, hopc, hfields, -, rfl⟩ := encodeFn_eq_bytes h
  obtain ⟨-, hopw, -⟩ := numToBytes_eq_some hopc
  refine ⟨_, ?_, rfl⟩
  simp only [List.length_append, hfields.lengthWidth, hfields.checkWidth, hopw]

/-- What ENCODE returns begins with the marker. -/
theorem encodeFn_sof_prefix {c : Config} {op : Nat} {pl w : Bytes} (h : encodeFn c op pl = some (.bytes w)) : c.sof <+: w := by
  obtain ⟨x, -, rfl⟩ := encodeFn_length h
  exact List.prefix_append _ _

/-- Settles O34: escaping sends each byte of the escaped region once or twice, and without it once. -/
theorem wireLengthIsWithinItsBounds : Obligations.WireLengthIsWithinItsBounds := by
  intro c op pl w _ h b
  obtain ⟨x, hx, rfl⟩ := encodeFn_length h
  obtain ⟨hlow, hhigh⟩ := escape_length c x
  rw [List.length_append]
  refine ⟨by omega, by omega, fun he => ?_⟩
  rw [escape_off he]
  omega

end Sys2Proof
end

section
/-!
PROOFS. The presentation of an instruction decodes to it, and what a line input is recognised as brings exactly its bytes
(30_encoding.md section 5, 70_reset_and_hazards.md R204).
-/

namespace Sys2Proof

theorem frameOf_eq_some_iff {c : Config} {bytes : Bytes} {f : Frame} :
    frameOf c bytes = some f ↔ decodeFn c bytes = (.frame f, bytes.length) := by
  unfold frameOf
  split
  · rename_i g n hd
    simp only [hd, Option.ite_none_right_eq_some, Option.some.injEq, Prod.mk.injEq, Verdict.frame.injEq]
    exact and_comm
  · rename_i hd
    simp only [reduceCtorEq, false_iff]
    exact hd f _

theorem escPairOf_eq_some {c : Config} {bytes : Bytes} {x : Byte} (h : escPairOf c bytes = some x) :
    c.escEn = true ∧ bytes = [c.esc, x] := by
  unfold escPairOf at h
  split at h
  · simp only [Option.ite_none_right_eq_some, Bool.and_eq_true, beq_iff_eq] at h
    obtain ⟨⟨hesc, rfl⟩, ⟨⟩⟩ := h
    exact ⟨hesc, rfl⟩
  · cases h

theorem escPairOf_pair {c : Config} (he : c.escEn = true) (x : Byte) : escPairOf c [c.esc, x] = some x := by
  simp [escPairOf, he]

/-- No frame is as short as an escape pair. -/
theorem escPairOf_of_encodeFn {c : Config} {op : Nat} {pl w : Bytes} (hc : c.wf = true)
    (h : encodeFn c op pl = some (.bytes w)) : escPairOf c w = none := by
  obtain ⟨hsof, hlw, -, hopw, -, hcw, -⟩ := wf_clauses hc
  obtain ⟨hlong, -⟩ := wireLengthIsWithinItsBounds c op pl w hc h
  cases hp : escPairOf c w with
  | none => rfl
  | some x =>
    obtain ⟨-, rfl⟩ := escPairOf_eq_some hp
    simp only [List.length_cons, List.length_nil] at hlong
    omega

theorem frameWire_eq_some_iff {c : Config} {op : Nat} {pl w : Bytes} :
    frameWire c op pl = some w ↔ encodeFn c op pl = some (.bytes w) := by
  unfold frameWire
  split <;> rename_i hd
  · simp [hd]
  · simp only [reduceCtorEq, false_iff]
    exact hd w

/-- ENCODE answers with bytes for every legal opcode and body. -/
theorem exists_encodeFn_bytes {c : Config} {op : Nat} {pl : Bytes} (hc : c.wf = true) (hop : op < 2 ^ (8 * c.opw))
    (hmax : c.opw + pl.length ≤ c.maxBody) : ∃ w, encodeFn c op pl = some (.bytes w) := by
  obtain ⟨lval, hlval, hfits⟩ := exists_lengthValue hc (Nat.le_add_right _ pl.length) hmax
  obtain ⟨opc, hopc⟩ := exists_numToBytes hop c.endian
  obtain ⟨lenBytes, hlen⟩ := exists_numToBytes hfits c.endian
  obtain ⟨chk, hchk⟩ := exists_numToBytes (checkFn_lt hc (lenBytes ++ opc ++ pl)) c.endian
  exact ⟨_, encodeFn_of_fields hmax hopc ((lengthField_eq hlval).trans hlen) hchk⟩

/-- The bytes ENCODE returns are recognised as the frame of its operands. -/
theorem decodeLine_of_encodeFn {c : Config} {op : Nat} {pl w : Bytes} (hc : c.wf = true)
    (h : encodeFn c op pl = some (.bytes w)) : decodeLine c w = .frame op pl := by
  obtain ⟨f, hop, hmsg, hdecode⟩ := exists_decodeFn_of_encodeFn hc h
  have hf : frameOf c w = some f := frameOf_eq_some_iff.mpr (by simpa using hdecode [])
  simp only [decodeLine, escPairOf_of_encodeFn hc h, hf, hop, hmsg]

/-- Settles O36: a command is presented by its select code, a wire pattern by its bytes, which are recognised as it. -/
theorem everyWellFormedInstructionDecodesBack : Obligations.EveryWellFormedInstructionDecodesBack := by
  intro c i hc hi
  cases i with
  | encode op pl => exact ⟨_, rfl, rfl⟩
  | push b => exact ⟨_, rfl, rfl⟩
  | decode => exact ⟨_, rfl, rfl⟩
  | observe => exact ⟨_, rfl, rfl⟩
  | timeout => exact ⟨_, rfl, rfl⟩
  | reset => exact ⟨_, rfl, rfl⟩
  | reserved6 => cases hi
  | reserved7 => cases hi
  | frame op msg =>
    simp only [Instr.wf, Bool.and_eq_true, decide_eq_true_eq] at hi
    obtain ⟨w, hw⟩ := exists_encodeFn_bytes hc hi.1 hi.2
    refine ⟨.line w, ?_, congrArg Except.ok (decodeLine_of_encodeFn hc hw)⟩
    rw [encodeInstr, frameWire_eq_some_iff.mpr hw, Option.map_some]
  | escPair x =>
    have he : c.escEn = true := hi
    refine ⟨.line [c.esc, x], if_pos he, congrArg Except.ok ?_⟩
    simp only [decodeLine, escPairOf_pair he]

/-- A frame the decoder returns is the one ENCODE makes of its accessors: ENCODE gives back the bytes it was read from. -/
theorem encodeFn_of_decodeFn_frame {c : Config} {buf : Bytes} {f : Frame} {n : Nat} (h : decodeFn c buf = (.frame f, n)) :
    encodeFn c (frameOpcode c f) (frameMsg c f) = some (.bytes (buf.take n)) := by
  obtain ⟨lenBytes, body, chk, hlw, hcw, hbl, hmin, hmax, hsum, rfl, hn, hbuf⟩ := decodeFn_eq_frame h
  have hwire : buf.take n = c.sof ++ escape c (lenBytes ++ body ++ chk) := by
    rw [hbuf]
    exact List.take_left' (by rw [List.length_append, hn])
  have hopc := numToBytes_bytesToNum (body.take c.opw) c.endian
  have hlen := numToBytes_bytesToNum lenBytes c.endian
  have hchk := numToBytes_bytesToNum chk c.endian
  have hsplit : lenBytes ++ body.take c.opw ++ body.drop c.opw = lenBytes ++ body := by
    rw [List.append_assoc, List.take_append_drop]
  have hbody : c.opw + (body.drop c.opw).length = body.length := by rw [List.length_drop]; omega
  rw [List.length_take_of_le hmin] at hopc
  rw [hlw] at hlen
  rw [hcw, hsum] at hchk
  rw [hwire, ← hsplit]
  refine encodeFn_of_fields (by rw [frameMsg, hbody]; exact hmax) hopc ?_ (by rw [frameMsg, hsplit]; exact hchk)
  rw [frameMsg, hbody, lengthField_eq (v := bytesToNum lenBytes c.endian) (by omega), hlen]

end Sys2Proof

namespace Sys2Proof.Machine

/-! ### The arms of exec for the wire patterns -/

theorem exec_frame_of_bytes {s : State} {op : Nat} {msg w : Bytes} (h : encodeFn s.cfg op msg = some (.bytes w)) :
    exec (.frame op msg) s = .next (s.receive w) := by
  simp only [exec, execFrame, h]

theorem exec_frame_of_refused {s : State} {op : Nat} {msg : Bytes} {r : EncodeRefusal}
    (h : encodeFn s.cfg op msg = some (.refused r)) : exec (.frame op msg) s = .refused (.noSuchFrame r) := by
  simp only [exec, execFrame, h]

theorem exec_escPair_of_escEn {s : State} (h : s.cfg.escEn = true) (x : Byte) :
    exec (.escPair x) s = .next (s.receive [s.cfg.esc, x]) := if_pos h

theorem exec_escPair_of_not_escEn {s : State} (h : s.cfg.escEn = false) (x : Byte) :
    exec (.escPair x) s = .refused .noEscapeLayer := if_neg (by simp [h])

/-- Recognition changes nothing: the recognised instruction does what PUSH of the bytes does, on every state under the
configuration. -/
theorem exec_decodeLine (s : State) (bytes : Bytes) : exec (decodeLine s.cfg bytes) s = exec (.push bytes) s := by
  unfold decodeLine
  split
  · rename_i x hx
    obtain ⟨he, rfl⟩ := escPairOf_eq_some hx
    exact exec_escPair_of_escEn he x
  · split
    · rename_i f hf
      have hwire := encodeFn_of_decodeFn_frame (frameOf_eq_some_iff.mp hf)
      rw [List.take_length] at hwire
      exact exec_frame_of_bytes hwire
    · rfl

/-- Settles O37: every line input decodes, and recognition changes nothing. -/
theorem lineBytesArriveUnchanged : Obligations.LineBytesArriveUnchanged :=
  fun s bytes _ => ⟨decodeLine s.cfg bytes, rfl, exec_decodeLine s bytes⟩

end Sys2Proof.Machine
end

section
/-!
PROOFS. The loop of OBSERVE as a relation (42_observe.md R140): whatever it answers, under any configuration, comes of iterations
that each judged the head of the buffer.
-/

namespace Sys2Proof

/-- The loop of OBSERVE, from a buffer and its offset, returns these events and leaves this buffer and this offset. -/
inductive Observes (c : Config) : Bytes → Nat → List Event → Bytes → Nat → Prop where
  | done {buf : Bytes} (off : Nat) (h : (decodeFn c buf).1 = .needMoreBytes) : Observes c buf off [] buf off
  | event {buf buf' : Bytes} {off off' n : Nat} {v : Verdict} {e : Event} {es : List Event} (hd : decodeFn c buf = (v, n))
      (he : eventOf off (buf.take n) v = some e) (rest : Observes c (buf.drop n) (advanceOffset c off n) es buf' off') :
      Observes c buf off (e :: es) buf' off'

theorem observes_of_observeLoop {c : Config} {fuel off off' : Nat} {buf buf' : Bytes} {es : List Event}
    (h : observeLoop c fuel buf off = some (es, buf', off')) : Observes c buf off es buf' off' := by
  induction fuel generalizing buf off es with
  | zero => cases h
  | succ fuel ih =>
    cases he : eventOf off (buf.take (decodeFn c buf).2) (decodeFn c buf).1 with
    | none =>
      have hmore := (eventOf_eq_none_iff _ _ _).mp he
      rw [observeLoop_of_needMoreBytes hmore] at h
      cases h
      exact .done _ hmore
    | some e =>
      cases hr : observeLoop c fuel (buf.drop (decodeFn c buf).2) (advanceOffset c off (decodeFn c buf).2) with
      | none => rw [observeLoop_succ, he, hr] at h; cases h
      | some r =>
        rw [observeLoop_of_event he hr] at h
        obtain ⟨es, buf'', off''⟩ := r
        cases h
        exact .event rfl he (ih hr)

theorem observes_of_observeFn {c : Config} {off off' : Nat} {buf buf' : Bytes} {es : List Event}
    (h : observeFn c buf off = some (es, buf', off')) : Observes c buf off es buf' off' := observes_of_observeLoop h

/-- Under a legal configuration OBSERVE answers what its loop comes to. -/
theorem observeFn_of_observes {c : Config} {off off' : Nat} {buf buf' : Bytes} {es : List Event} (hc : c.wf = true)
    (h : Observes c buf off es buf' off') : observeFn c buf off = some (es, buf', off') := by
  induction h with
  | done off hmore => exact observeFn_of_needMoreBytes hmore off
  | event hd he _ ih =>
    rw [← (Prod.mk.inj hd).2] at he ih
    rw [← (Prod.mk.inj hd).1] at he
    exact observeFn_of_event hc he ih

theorem exists_observes {c : Config} (hc : c.wf = true) (buf : Bytes) (off : Nat) :
    ∃ es buf' off', Observes c buf off es buf' off' := by
  obtain ⟨⟨es, buf', off'⟩, hr⟩ := exists_observeFn hc buf off
  exact ⟨es, buf', off', observes_of_observeFn hr⟩

/-- The stream offset of an event. -/
def eventOffset : Event → Nat
  | .frameEvent off _ _ => off
  | .rawSegment off _ _ => off

/-- Everything an event can be. -/
theorem eventOf_eq_some {off : Nat} {raw : Bytes} {v : Verdict} {e : Event} (h : eventOf off raw v = some e) :
    (∃ f, v = .frame f ∧ e = .frameEvent off f raw) ∨ ∃ r, v = .invalid r ∧ e = .rawSegment off raw r := by
  cases v with
  | frame f => exact .inl ⟨f, rfl, (Option.some.inj h).symm⟩
  | needMoreBytes => cases h
  | invalid r => exact .inr ⟨r, rfl, (Option.some.inj h).symm⟩

theorem eventBytes_of_eventOf {off : Nat} {raw : Bytes} {v : Verdict} {e : Event} (h : eventOf off raw v = some e) :
    eventBytes e = raw := by
  obtain ⟨f, -, rfl⟩ | ⟨r, -, rfl⟩ := eventOf_eq_some h <;> rfl

theorem eventOffset_of_eventOf {off : Nat} {raw : Bytes} {v : Verdict} {e : Event} (h : eventOf off raw v = some e) :
    eventOffset e = off := by
  obtain ⟨f, -, rfl⟩ | ⟨r, -, rfl⟩ := eventOf_eq_some h <;> rfl

/-- DECODE consumes no more than there is, under any configuration. -/
theorem decodeFn_count_le {c : Config} {buf : Bytes} {v : Verdict} {n : Nat} (h : decodeFn c buf = (v, n)) : n ≤ buf.length := by
  obtain hd | ⟨-, hd⟩ | ⟨hb, -, r, -, hd⟩ | ⟨f, n', hd⟩ := decodeFn_outcomes c buf
  · cases hd.symm.trans h
    exact Nat.zero_le _
  · cases hd.symm.trans h
    exact nextMarker_le_length c buf 0
  · cases hd.symm.trans h
    exact (nextMarker_one_bounds c hb).2
  · cases hd.symm.trans h
    exact decodeFn_frame_le_length hd

/-- NeedMoreBytes consumes nothing. -/
theorem decodeFn_needMoreBytes {c : Config} {buf : Bytes} (h : (decodeFn c buf).1 = .needMoreBytes) :
    decodeFn c buf = (.needMoreBytes, 0) := by
  obtain hd | ⟨-, hd⟩ | ⟨-, -, r, -, hd⟩ | ⟨f, n, hd⟩ := decodeFn_outcomes c buf
  · exact hd
  all_goals rw [hd] at h; cases h

/-! ### Offsets -/

theorem advanceOffset_lt (c : Config) (off n : Nat) : advanceOffset c off n < 2 ^ c.offw := Nat.mod_lt _ (Nat.two_pow_pos _)

theorem advanceOffset_zero {c : Config} {off : Nat} (h : off < 2 ^ c.offw) : advanceOffset c off 0 = off := Nat.mod_eq_of_lt h

theorem advanceOffset_advanceOffset (c : Config) (off m n : Nat) :
    advanceOffset c (advanceOffset c off m) n = advanceOffset c off (m + n) := by
  simp only [advanceOffset, Nat.mod_add_mod, Nat.add_assoc]

/-! ### What the loop returns and leaves -/

/-- The bytes of the events, in order, are the bytes the loop has consumed. -/
theorem Observes.bytes {c : Config} {buf buf' : Bytes} {off off' : Nat} {es : List Event} (h : Observes c buf off es buf' off') :
    (es.map eventBytes).flatten ++ buf' = buf := by
  induction h with
  | done => rfl
  | event _ he _ ih =>
    rw [List.map_cons, List.flatten_cons, eventBytes_of_eventOf he, List.append_assoc, ih, List.take_append_drop]

/-- The loop ends with nothing to decode. -/
theorem Observes.drained {c : Config} {buf buf' : Bytes} {off off' : Nat} {es : List Event}
    (h : Observes c buf off es buf' off') : decodeFn c buf' = (.needMoreBytes, 0) := by
  induction h with
  | done _ hmore => exact decodeFn_needMoreBytes hmore
  | event _ _ _ ih => exact ih

/-- The offset advances by the number of bytes of the events. -/
theorem Observes.offset {c : Config} {buf buf' : Bytes} {off off' : Nat} {es : List Event} (h : Observes c buf off es buf' off')
    (hoff : off < 2 ^ c.offw) : off' = advanceOffset c off (es.map eventBytes).flatten.length := by
  induction h with
  | done => exact (advanceOffset_zero hoff).symm
  | event hd he _ ih =>
    rw [ih (advanceOffset_lt c _ _), advanceOffset_advanceOffset, List.map_cons, List.flatten_cons, List.length_append,
      eventBytes_of_eventOf he, List.length_take_of_le (decodeFn_count_le hd)]

/-- The offset of each event counts the bytes of the events before it. -/
theorem Observes.eventOffset {c : Config} {buf buf' : Bytes} {off off' : Nat} {es front back : List Event} {e : Event}
    (h : Observes c buf off es buf' off') (hoff : off < 2 ^ c.offw) (hes : es = front ++ e :: back) :
    eventOffset e = advanceOffset c off (front.map eventBytes).flatten.length := by
  induction h generalizing front with
  | done => simp at hes
  | event hd he _ ih =>
    cases front with
    | nil =>
      cases hes
      rw [eventOffset_of_eventOf he]
      exact (advanceOffset_zero hoff).symm
    | cons e' front =>
      cases hes
      rw [ih (advanceOffset_lt c _ _) rfl, advanceOffset_advanceOffset, List.map_cons, List.flatten_cons, List.length_append,
        eventBytes_of_eventOf he, List.length_take_of_le (decodeFn_count_le hd)]

/-- Each event is the event of a verdict on some buffer. -/
theorem Observes.exists_verdict {c : Config} {buf buf' : Bytes} {off off' : Nat} {es : List Event}
    (h : Observes c buf off es buf' off') {e : Event} (hmem : e ∈ es) :
    ∃ b o v n, decodeFn c b = (v, n) ∧ eventOf o (b.take n) v = some e := by
  induction h with
  | done => cases hmem
  | event hd he _ ih =>
    obtain rfl | hmem := List.mem_cons.mp hmem
    · exact ⟨_, _, _, _, hd, he⟩
    · exact ih hmem

theorem mem_eventFrames_iff {es : List Event} {off : Nat} {f : Frame} :
    (off, f) ∈ eventFrames es ↔ ∃ w, Event.frameEvent off f w ∈ es := by
  simp only [eventFrames, List.mem_filterMap]
  constructor
  · rintro ⟨_ | _, hmem, heq⟩ <;> cases heq
    exact ⟨_, hmem⟩
  · rintro ⟨w, hmem⟩
    exact ⟨_, hmem, rfl⟩

/-- Every Frame OBSERVE returns is valid (10_state.md R25). -/
theorem Observes.frames_valid {c : Config} {buf buf' : Bytes} {off off' : Nat} {es : List Event}
    (h : Observes c buf off es buf' off') : ∀ f ∈ resultFrames (.observed es), FrameValid c f := by
  intro f hf
  obtain ⟨⟨o, g⟩, hg, rfl⟩ := List.mem_map.mp hf
  obtain ⟨w, hw⟩ := mem_eventFrames_iff.mp hg
  obtain ⟨b, o', v, n, hd, he⟩ := h.exists_verdict hw
  obtain ⟨f', rfl, heq⟩ | ⟨r, -, heq⟩ := eventOf_eq_some he <;> cases heq
  exact (decodeFn_frame_valid hd).1

end Sys2Proof
end

section
/-!
PROOFS. What an operation does to the state, one constructor for each way in which it can complete.
-/

namespace Sys2Proof.Machine

/-- The effects of an operation that completes. -/
inductive Effect (s : State) : Instr → State → Prop where
  | encoded {op : Nat} {pl : Bytes} {r : EncodeResult} (h : encodeFn s.cfg op pl = some r) :
      Effect s (.encode op pl) (s.ret (.encoded r))
  | pushed (b : Bytes) : Effect s (.push b) (s.receive b)
  | framed {op : Nat} {msg w : Bytes} (h : encodeFn s.cfg op msg = some (.bytes w)) : Effect s (.frame op msg) (s.receive w)
  | paired {x : Byte} (h : s.cfg.escEn = true) : Effect s (.escPair x) (s.receive [s.cfg.esc, x])
  | decoded {v : Verdict} {n : Nat} (h : decodeFn s.cfg s.rxbuf = (v, n)) :
      Effect s .decode ((s.consume n).ret (.decoded v n (s.rxbuf.take n)))
  | observed {es : List Event} {buf : Bytes} {off : Nat} (h : observeFn s.cfg s.rxbuf s.rxoff = some (es, buf, off)) :
      Effect s .observe (State.ret { s with rxbuf := buf, rxoff := off } (.observed es))
  | idled (h : s.rxbuf = [] ∨ decodeFn s.cfg s.rxbuf ≠ (.needMoreBytes, 0)) :
      Effect s .timeout (s.ret (.timedOut .noAction 0 []))
  | dropped (hbuf : s.rxbuf ≠ []) (hmore : decodeFn s.cfg s.rxbuf = (.needMoreBytes, 0)) :
      Effect s .timeout ((s.consume (nextMarker s.cfg s.rxbuf 1)).ret
        (.timedOut (.invalid .stalled) (nextMarker s.cfg s.rxbuf 1) (s.rxbuf.take (nextMarker s.cfg s.rxbuf 1))))
  | cleared : Effect s .reset { s with rxbuf := [], rxoff := 0 }

theorem exec_frame_eq (op : Nat) (msg : Bytes) (s : State) : exec (.frame op msg) s = execFrame op msg s := rfl

theorem effect_of_exec {i : Instr} {s t : State} (h : exec i s = .next t) : Effect s i t := by
  cases i with
  | encode op pl =>
    rw [exec_encode] at h
    split at h
    · cases h; exact .encoded ‹_›
    · cases h
  | push b => cases h; exact .pushed b
  | decode => cases h; exact .decoded rfl
  | observe =>
    rw [exec_observe] at h
    split at h
    · cases h; exact .observed ‹_›
    · cases h
  | timeout =>
    obtain ⟨hidle, hexec⟩ | ⟨hbuf, hmore, hexec⟩ := exec_timeout_cases s <;> rw [hexec] at h <;> cases h
    · exact .idled hidle
    · exact .dropped hbuf hmore
  | reset => cases h; exact .cleared
  | reserved6 => cases h
  | reserved7 => cases h
  | frame op msg =>
    rw [exec_frame_eq, execFrame] at h
    split at h
    · cases h; exact .framed ‹_›
    · cases h
    · cases h
  | escPair x =>
    cases he : s.cfg.escEn with
    | true =>
      rw [exec_escPair_of_escEn he] at h
      cases h
      exact .paired he
    | false => rw [exec_escPair_of_not_escEn he] at h; cases h

/-- An operation completes exactly with one of its effects. -/
theorem exec_next_iff {i : Instr} {s t : State} : exec i s = .next t ↔ Effect s i t := by
  refine ⟨effect_of_exec, fun h => ?_⟩
  cases h with
  | encoded h => exact exec_encode_of_answer h
  | pushed b => rfl
  | framed h => exact exec_frame_of_bytes h
  | paired h => exact exec_escPair_of_escEn h _
  | decoded h => rw [exec_decode, h]
  | observed h => exact exec_observe_of_answer h
  | idled h => exact exec_timeout_of_not_stalled h
  | dropped hbuf hmore => exact exec_timeout_of_stalled hbuf hmore
  | cleared => rfl

theorem Effect.cfg {i : Instr} {s t : State} (h : Effect s i t) : t.cfg = s.cfg := by
  cases h <;> simp

theorem Effect.inputs {i : Instr} {s t : State} (h : Effect s i t) : t.inputs = s.inputs := by
  cases h <;> simp

theorem perform_effect {i : Instr} {s t : State} (h : perform i s = .next t) : ∃ u, Effect s i u ∧ t = u.receiveTurn := by
  obtain ⟨u, hu, rfl⟩ := perform_next_iff.mp h
  exact ⟨u, effect_of_exec hu, rfl⟩

theorem perform_cfg {i : Instr} {s t : State} (h : perform i s = .next t) : t.cfg = s.cfg := by
  obtain ⟨u, hu, rfl⟩ := perform_effect h
  exact hu.cfg

/-- A step that completes is an idle one or the performance of the first input's instruction. -/
theorem step_effect {s t : State} (h : step s = .next t) :
    (s.inputs = [] ∧ t = s.receiveTurn) ∨
    ∃ inp rest i u, s.inputs = inp :: rest ∧ decodeInstr s.cfg inp = .ok i ∧ Effect { s with inputs := rest } i u ∧
      t = u.receiveTurn := by
  obtain hidle | ⟨inp, rest, i, u, hin, hdec, hexec, ht⟩ := step_next_cases h
  · exact .inl hidle
  · exact .inr ⟨inp, rest, i, u, hin, hdec, effect_of_exec hexec, ht⟩

/-- Settles O15: no effect writes the two fields, and a step takes the first input away before its instruction runs. -/
theorem noOperationWritesTheConfiguration : Obligations.NoOperationWritesTheConfiguration := by
  refine ⟨fun i s t h => ⟨(effect_of_exec h).cfg, (effect_of_exec h).inputs⟩, fun s t h => ?_⟩
  obtain ⟨hin, rfl⟩ | ⟨inp, rest, i, u, hin, -, hu, rfl⟩ := step_effect h
  · simp [hin]
  · simp [hin, hu.cfg, hu.inputs]

end Sys2Proof.Machine
end

section
/-!
PROOFS. The receive source's turn (20_memory.md R47; log 6).
-/

namespace Sys2Proof.Machine

/-- The turn loses no byte and keeps their order. -/
theorem deliverHeld_bytes (cap : Option Nat) (buf : Bytes) (held : List Bytes) :
    (deliverHeld cap buf held).1 ++ (deliverHeld cap buf held).2.flatten = buf ++ held.flatten := by
  induction held generalizing buf with
  | nil => rfl
  | cons h hs ih =>
    unfold deliverHeld
    split
    · rw [ih, List.flatten_cons, List.append_assoc]
    · rfl

theorem exists_deliverHeld_drop (cap : Option Nat) (buf : Bytes) (held : List Bytes) :
    ∃ n, (deliverHeld cap buf held).2 = held.drop n := by
  induction held generalizing buf with
  | nil => exact ⟨0, rfl⟩
  | cons h hs ih =>
    unfold deliverHeld
    split
    · obtain ⟨n, hn⟩ := ih (buf ++ h)
      exact ⟨n + 1, hn⟩
    · exact ⟨0, rfl⟩

/-- The turn stops only before a PUSH that does not fit. -/
theorem deliverHeld_blocked (cap : Option Nat) (buf : Bytes) (held : List Bytes) (h : Bytes) (hs : List Bytes)
    (heq : (deliverHeld cap buf held).2 = h :: hs) : fits cap ((deliverHeld cap buf held).1.length + h.length) = false := by
  induction held generalizing buf with
  | nil => cases heq
  | cons b bs ih =>
    unfold deliverHeld at heq ⊢
    split
    · rw [if_pos ‹_›] at heq
      exact ih _ heq
    · rw [if_neg ‹_›] at heq
      cases heq
      exact Bool.eq_false_iff.mpr ‹_›

/-- The turn fills the buffer no further than its capacity. -/
theorem deliverHeld_fits {cap : Option Nat} {buf : Bytes} (held : List Bytes) (h : fits cap buf.length = true) :
    fits cap (deliverHeld cap buf held).1.length = true := by
  induction held generalizing buf with
  | nil => exact h
  | cons b bs ih =>
    unfold deliverHeld
    split
    · exact ih (by rwa [List.length_append])
    · exact h

theorem heldBlocked_receiveTurn (s : State) : heldBlocked s.receiveTurn := by
  unfold heldBlocked
  split
  · trivial
  · exact deliverHeld_blocked _ _ _ _ _ ‹_›

theorem receiveTurn_bytes (s : State) :
    s.receiveTurn.rxbuf ++ s.receiveTurn.rxHeld.flatten = s.rxbuf ++ s.rxHeld.flatten :=
  deliverHeld_bytes s.cfg.rxcap s.rxbuf s.rxHeld

/-- Settles O53: the turn is `deliverHeld` on the two fields it writes. -/
theorem heldBytesAreDeliveredInOrder : Obligations.HeldBytesAreDeliveredInOrder := fun s =>
  ⟨receiveTurn_bytes s, exists_deliverHeld_drop s.cfg.rxcap s.rxbuf s.rxHeld, heldBlocked_receiveTurn s, rfl⟩

end Sys2Proof.Machine
end

section
/-!
PROOFS. The codec's invariant (10_state.md section 1). An operation keeps all of it but the clause about held bytes, which
the receive source's turn restores.
-/

namespace Sys2Proof.Machine

/-- The clauses of the invariant that every operation keeps. -/
structure State.Sound (s : State) : Prop where
  config : s.cfg.wf = true
  offset : s.rxoff < 2 ^ s.cfg.offw
  capacity : fits s.cfg.rxcap s.rxbuf.length = true
  frames : ∀ r ∈ s.returned, ∀ f ∈ resultFrames r, FrameValid s.cfg f

theorem State.Inv.sound {s : State} (h : s.Inv) : s.Sound := ⟨h.config, h.offset, h.capacity, h.frames⟩

theorem State.Sound.with_inputs {s : State} (h : s.Sound) (ins : List Input) : State.Sound { s with inputs := ins } :=
  ⟨h.config, h.offset, h.capacity, h.frames⟩

/-- The receive source's turn restores the whole invariant. -/
theorem State.Sound.inv_receiveTurn {s : State} (h : s.Sound) : s.receiveTurn.Inv where
  config := h.config
  offset := h.offset
  capacity := deliverHeld_fits s.rxHeld h.capacity
  held := heldBlocked_receiveTurn s
  frames := h.frames

theorem fits_mono {cap : Option Nat} {m n : Nat} (hmn : m ≤ n) (h : fits cap n = true) : fits cap m = true := by
  rw [fits_iff] at h ⊢
  exact fun k hk => hmn.trans (h k hk)

theorem State.Sound.receive {s : State} (h : s.Sound) (b : Bytes) : (s.receive b).Sound := by
  obtain ⟨hen, heq⟩ | ⟨-, heq⟩ := receive_cases s b
  · rw [heq]
    rw [State.pushEnabled, Bool.and_eq_true, ← List.length_append] at hen
    exact ⟨h.config, h.offset, hen.2, h.frames⟩
  · rw [heq]
    exact ⟨h.config, h.offset, h.capacity, h.frames⟩

theorem State.Sound.ret {s : State} (h : s.Sound) {r : Result} (hr : ∀ f ∈ resultFrames r, FrameValid s.cfg f) :
    (s.ret r).Sound := by
  refine ⟨h.config, h.offset, h.capacity, fun r' hr' => ?_⟩
  obtain hold | hnew := List.mem_append.mp hr'
  · exact h.frames r' hold
  · rw [List.mem_singleton.mp hnew]
    exact hr

theorem State.Sound.consume {s : State} (h : s.Sound) (n : Nat) : (s.consume n).Sound :=
  ⟨h.config, advanceOffset_lt s.cfg s.rxoff n, fits_mono (by simp) h.capacity, h.frames⟩

/-- Every Frame a DECODE returns is valid. -/
theorem decoded_frames_valid {c : Config} {buf raw : Bytes} {v : Verdict} {n : Nat} (h : decodeFn c buf = (v, n)) :
    ∀ f ∈ resultFrames (.decoded v n raw), FrameValid c f := by
  cases v with
  | frame f =>
    intro g hg
    rw [List.mem_singleton.mp hg]
    exact (decodeFn_frame_valid h).1
  | needMoreBytes => exact nofun
  | invalid r => exact nofun

theorem Effect.sound {i : Instr} {s t : State} (h : Effect s i t) (hs : s.Sound) : t.Sound := by
  cases h with
  | encoded _ => exact hs.ret nofun
  | pushed b => exact hs.receive b
  | framed _ => exact hs.receive _
  | paired _ => exact hs.receive _
  | decoded hd => exact (hs.consume _).ret (decoded_frames_valid hd)
  | @observed es buf off ho =>
    have hobs := observes_of_observeFn ho
    have hlen := congrArg List.length hobs.bytes
    rw [List.length_append] at hlen
    have hoff : off < 2 ^ s.cfg.offw := hobs.offset hs.offset ▸ advanceOffset_lt _ _ _
    have hbuf : State.Sound { s with rxbuf := buf, rxoff := off } :=
      ⟨hs.config, hoff, fits_mono (show buf.length ≤ s.rxbuf.length by omega) hs.capacity, hs.frames⟩
    exact hbuf.ret hobs.frames_valid
  | idled _ => exact hs.ret nofun
  | dropped _ _ => exact (hs.consume _).ret nofun
  | cleared => exact ⟨hs.config, Nat.two_pow_pos _, fits_mono (Nat.zero_le _) hs.capacity, hs.frames⟩

/-- Settles O51: each effect keeps what the receive source's turn then completes to the invariant. -/
theorem everyStepKeepsTheInvariant : Obligations.EveryStepKeepsTheInvariant := by
  intro s s' hs h
  obtain ⟨-, rfl⟩ | ⟨inp, rest, i, u, -, -, hu, rfl⟩ := step_effect h
  · exact hs.sound.inv_receiveTurn
  · exact (hu.sound (hs.sound.with_inputs rest)).inv_receiveTurn

/-- Settles O50: at reset the buffer is empty, nothing is held and nothing has been returned. -/
theorem invariantHoldsAtReset : Obligations.InvariantHoldsAtReset where
  config := by decide
  offset := Nat.two_pow_pos _
  capacity := rfl
  held := trivial
  frames := nofun

end Sys2Proof.Machine
end

section
/-!
PROOFS. No byte is lost, duplicated or reordered (20_memory.md R48, 10_state.md R24).
-/

namespace Sys2Proof.Machine

@[simp] theorem rawLog_nil : rawLog [] = [] := rfl
@[simp] theorem rawLog_singleton (r : Result) : rawLog [r] = resultRaw r := by simp [rawLog]
@[simp] theorem rawLog_append (rs rs' : List Result) : rawLog (rs ++ rs') = rawLog rs ++ rawLog rs' := by simp [rawLog]

/-- From `s` to `t` the results `rs` were returned and the bytes `b` arrived: what was handed back, what is buffered and what is
held are the bytes there before and those that arrived, and the offset counts what was handed back. -/
structure Accounts (s t : State) (rs : List Result) (b : Bytes) : Prop where
  cfg : t.cfg = s.cfg
  returned : t.returned = s.returned ++ rs
  bytes : rawLog rs ++ t.rxbuf ++ t.rxHeld.flatten = s.rxbuf ++ s.rxHeld.flatten ++ b
  offset : t.rxoff = advanceOffset s.cfg s.rxoff (rawLog rs).length

theorem Accounts.refl {s : State} (h : s.rxoff < 2 ^ s.cfg.offw) : Accounts s s [] [] :=
  ⟨rfl, (List.append_nil _).symm, by simp, (advanceOffset_zero h).symm⟩

theorem Accounts.trans {s t u : State} {rs rs' : List Result} {b b' : Bytes} (h : Accounts s t rs b) (h' : Accounts t u rs' b') :
    Accounts s u (rs ++ rs') (b ++ b') where
  cfg := h'.cfg.trans h.cfg
  returned := by rw [h'.returned, h.returned, List.append_assoc]
  bytes := by
    calc rawLog (rs ++ rs') ++ u.rxbuf ++ u.rxHeld.flatten
        = rawLog rs ++ (rawLog rs' ++ u.rxbuf ++ u.rxHeld.flatten) := by rw [rawLog_append]; simp only [List.append_assoc]
      _ = rawLog rs ++ t.rxbuf ++ t.rxHeld.flatten ++ b' := by rw [h'.bytes]; simp only [List.append_assoc]
      _ = s.rxbuf ++ s.rxHeld.flatten ++ (b ++ b') := by rw [h.bytes, List.append_assoc]
  offset := by rw [h'.offset, h.offset, h.cfg, advanceOffset_advanceOffset, rawLog_append, List.length_append]

theorem Accounts.receiveTurn {s t : State} {rs : List Result} {b : Bytes} (h : Accounts s t rs b) :
    Accounts s t.receiveTurn rs b :=
  ⟨h.cfg, h.returned, by rw [List.append_assoc, receiveTurn_bytes, ← List.append_assoc, h.bytes], h.offset⟩

theorem accounts_receive {s : State} (h : s.rxoff < 2 ^ s.cfg.offw) (b : Bytes) : Accounts s (s.receive b) [] b :=
  ⟨receive_cfg s b, by simp, receive_bytes s b, by simp [advanceOffset_zero h]⟩

/-- A returned value that hands back the first bytes of the buffer, as many as are consumed. -/
theorem accounts_consume {s : State} {n : Nat} {r : Result} (hr : resultRaw r = s.rxbuf.take n) (hn : n ≤ s.rxbuf.length) :
    Accounts s ((s.consume n).ret r) [r] [] where
  cfg := rfl
  returned := rfl
  bytes := by simp [hr]
  offset := by simp [hr, List.length_take_of_le hn]

/-- A returned value that hands back no bytes. -/
theorem accounts_ret {s : State} {r : Result} (h : s.rxoff < 2 ^ s.cfg.offw) (hr : resultRaw r = []) :
    Accounts s (s.ret r) [r] [] where
  cfg := rfl
  returned := rfl
  bytes := by simp [hr]
  offset := by simp [hr, advanceOffset_zero h]

theorem arriving_frame {c : Config} {op : Nat} {msg w : Bytes} (h : encodeFn c op msg = some (.bytes w)) :
    arriving c (.frame op msg) = w := by
  rw [arriving, frameWire_eq_some_iff.mpr h, Option.getD_some]

theorem Effect.accounts {i : Instr} {s t : State} (h : Effect s i t) (hi : i ≠ .reset) (hoff : s.rxoff < 2 ^ s.cfg.offw) :
    ∃ rs, Accounts s t rs (arriving s.cfg i) := by
  cases h with
  | encoded _ => exact ⟨_, accounts_ret hoff rfl⟩
  | pushed b => exact ⟨_, accounts_receive hoff b⟩
  | framed hw =>
    rw [arriving_frame hw]
    exact ⟨_, accounts_receive hoff _⟩
  | paired _ => exact ⟨_, accounts_receive hoff _⟩
  | decoded hd => exact ⟨_, accounts_consume rfl (decodeFn_count_le hd)⟩
  | observed ho =>
    have hobs := observes_of_observeFn ho
    refine ⟨[.observed _], rfl, rfl, ?_, ?_⟩
    · simp [resultRaw, arriving, ← hobs.bytes]
    · simpa [resultRaw] using hobs.offset hoff
  | idled _ => exact ⟨_, accounts_ret hoff rfl⟩
  | dropped hbuf _ => exact ⟨_, accounts_consume rfl (nextMarker_one_bounds s.cfg hbuf).2⟩
  | cleared => exact absurd rfl hi

/-- Over a run, operation by operation. -/
theorem runInstrs_accounts {ops : List Instr} {s t : State} (hops : ∀ i ∈ ops, i ≠ .reset) (hoff : s.rxoff < 2 ^ s.cfg.offw)
    (h : runInstrs ops s = .next t) : ∃ rs, Accounts s t rs (ops.map (arriving s.cfg)).flatten := by
  induction ops generalizing s with
  | nil =>
    cases h
    exact ⟨[], Accounts.refl hoff⟩
  | cons i is ih =>
    obtain ⟨hi, his⟩ := List.forall_mem_cons.mp hops
    obtain ⟨u, hu, hrun⟩ := runInstrs_cons_next_iff.mp h
    obtain ⟨v, hv, rfl⟩ := perform_effect hu
    obtain ⟨rs, hrs⟩ := hv.accounts hi hoff
    have first := hrs.receiveTurn
    have hoff' : v.receiveTurn.rxoff < 2 ^ v.receiveTurn.cfg.offw := by
      rw [first.offset, first.cfg]
      exact advanceOffset_lt _ _ _
    obtain ⟨rs', hrs'⟩ := ih his hoff' hrun
    rw [first.cfg] at hrs'
    exact ⟨rs ++ rs', first.trans hrs'⟩

/-- Settles O52: the accounts of a run are those of its operations in order. -/
theorem noByteIsLostDuplicatedOrReordered : Obligations.NoByteIsLostDuplicatedOrReordered := by
  intro ops s t hops hoff h
  obtain ⟨rs, hrs⟩ := runInstrs_accounts hops hoff h
  exact ⟨rs, hrs.returned, hrs.bytes, hrs.offset⟩

end Sys2Proof.Machine
end

section
/-!
PROOFS. What more bytes change of a verdict, and what they do not (41_decode.md R116, R119).
-/

namespace Sys2Proof

/-- Settles O23: both directions are read off a defined `num_to_bytes`. -/
theorem numbersAndBytesRoundTrip : Obligations.NumbersAndBytesRoundTrip := by
  refine ⟨fun v w e b h => ?_, numToBytes_bytesToNum⟩
  obtain ⟨-, -, hnum⟩ := numToBytes_eq_some h
  exact hnum

/-- Settles O28: what stands between the two indices of an accepting `take` is the escaped form of what it returns. -/
theorem takeInvertsEscape : Obligations.TakeInvertsEscape := by
  refine fun c hc => ⟨take_escape hc, fun buf i k x j hi h => ?_⟩
  obtain ⟨hlen, hj, hdrop⟩ := take_eq_ok h
  obtain ⟨hij, hjle⟩ := take_ok_bounds hi h
  refine ⟨hlen, hij, hjle, ?_⟩
  rw [hdrop]
  exact List.take_left' (by omega)

/-- A position that is plausible with more bytes behind it is plausible without them. -/
theorem agrees_of_agrees_append {x y t : Bytes} (h : agrees x (y ++ t) = true) : agrees x y = true := by
  rw [agrees_iff_prefix] at h ⊢
  obtain hx | hy := h
  · exact List.prefix_or_prefix_of_prefix hx (List.prefix_append y t)
  · exact .inr ((List.prefix_append y t).trans hy)

/-- More bytes never bring the next plausible position nearer. -/
theorem nextMarker_le_nextMarker_append (c : Config) {buf : Bytes} {start : Nat} (h : start ≤ buf.length) (t : Bytes) :
    nextMarker c buf start ≤ nextMarker c (buf ++ t) start := by
  have hstart : start ≤ nextMarker c (buf ++ t) start := le_nextMarker (by rw [List.length_append]; omega)
  by_cases hin : nextMarker c (buf ++ t) start < buf.length
  · have hplaus := agrees_drop_nextMarker (c := c) (buf := buf ++ t) (start := start) (by rw [List.length_append]; omega)
    rw [List.drop_append_of_le_length hin.le] at hplaus
    exact nextMarker_le_of_agrees hstart (agrees_of_agrees_append hplaus)
  · exact (nextMarker_le_length c buf start).trans (by omega)

/-- A whole marker at the next plausible position is still there with more bytes. -/
theorem nextMarker_append_of_whole {c : Config} {buf : Bytes} {start : Nat} (h : start ≤ buf.length) (hsof : 1 ≤ c.sof.length)
    (hwhole : nextMarker c buf start + c.sof.length ≤ buf.length) (t : Bytes) :
    nextMarker c (buf ++ t) start = nextMarker c buf start := by
  refine le_antisymm (nextMarker_le_of_agrees (le_nextMarker h) ?_) (nextMarker_le_nextMarker_append c h t)
  have hplaus := agrees_drop_nextMarker (c := c) (buf := buf) (start := start) (by omega)
  have hprefix : c.sof <+: buf.drop (nextMarker c buf start) := by
    obtain hl | hr := (agrees_iff_prefix _ _).mp hplaus
    · exact hl
    · exact (hr.eq_of_length_le (by rw [List.length_drop]; omega)) ▸ List.prefix_rfl
  rw [List.drop_append_of_le_length (by omega), agrees_iff_prefix]
  exact .inl (hprefix.trans (List.prefix_append _ _))

theorem sof_prefix_append_of_prefix {c : Config} {buf : Bytes} (h : c.sof <+: buf) (t : Bytes) : c.sof <+: buf ++ t :=
  h.trans (List.prefix_append _ _)

/-- More bytes change neither a Frame verdict nor its count. -/
theorem decodeFn_frame_append {c : Config} {buf : Bytes} {f : Frame} {n : Nat} (hc : c.wf = true)
    (h : decodeFn c buf = (.frame f, n)) (t : Bytes) : decodeFn c (buf ++ t) = (.frame f, n) := by
  obtain ⟨lenBytes, body, chk, hlw, hcw, hbl, hmin, hmax, hsum, rfl, hn, hbuf⟩ := decodeFn_eq_frame h
  have hread := decodeFn_of_good_check hc ⟨hlw, ⟨hbl, hmin, hmax⟩, hcw⟩ hsum (buf.drop n ++ t)
  rw [← List.append_assoc, ← hbuf, List.length_append, ← hn] at hread
  exact hread

/-- More bytes do not change the reason for which a candidate at the head was rejected; the skip is that of the longer buffer. -/
theorem decodeFn_invalid_append {c : Config} {buf : Bytes} {r : InvalidReason} {n : Nat} (hc : c.wf = true) (hr : r ≠ .noMarker)
    (h : decodeFn c buf = (.invalid r, n)) (t : Bytes) :
    buf ≠ [] ∧ n = nextMarker c buf 1 ∧ decodeFn c (buf ++ t) = (.invalid r, nextMarker c (buf ++ t) 1) := by
  obtain ⟨-, hd⟩ | ⟨-, -, hd⟩ | ⟨-, -, -, hd⟩ | ⟨hb, hp, hs, ⟨-, hd⟩ | ⟨hlen, hd⟩ | ⟨lenBytes, i1, hlen, ⟨hbad, hd⟩ |
    ⟨b, hbl, hmin, hmax, ⟨-, hd⟩ | ⟨hbody, hd⟩ | ⟨rest, i2, hbody, ⟨hchk, hd⟩ | ⟨-, hd⟩⟩⟩⟩⟩ := decodeFn_cases c buf <;>
    rw [hd] at h <;> cases h
  · exact absurd rfl hr
  all_goals have hsof := sof_prefix_append_of_prefix (sof_prefix_of_nextMarker hb hp hs) t
  · exact ⟨hb, rfl, decodeFn_of_length_bad hc hsof (take_append_of_bad hs hlen t)⟩
  all_goals
    have hi1 := (take_ok_bounds hs hlen).2
    have hlen' := take_append_of_ok hc hs hlen t
  · exact ⟨hb, rfl, decodeFn_of_illegal_length hc hsof hlen' hbad⟩
  · exact ⟨hb, rfl, decodeFn_of_body_bad hc hsof hlen' ⟨hbl, hmin, hmax⟩ (take_append_of_bad hi1 hbody t)⟩
  · exact ⟨hb, rfl, decodeFn_of_check_ne hc hsof hlen' ⟨hbl, hmin, hmax⟩ (take_append_of_ok hc hi1 hbody t) hchk⟩

/-- Settles O38: the reading of the candidate is unchanged, and the skip is `next_marker` on the longer buffer. -/
theorem verdictsAreStableUnderAppending : Obligations.VerdictsAreStableUnderAppending := by
  refine fun c buf t hc => ⟨fun f n h => decodeFn_frame_append hc h t, fun r n hr h => ?_⟩
  obtain ⟨hsof, -⟩ := wf_clauses hc
  obtain ⟨hb, rfl, hd⟩ := decodeFn_invalid_append hc hr h t
  have hpos : 1 ≤ buf.length := List.length_pos_iff.mpr hb
  exact ⟨_, hd, nextMarker_le_nextMarker_append c hpos t, fun hwhole => nextMarker_append_of_whole hpos hsof hwhole t⟩

/-- Settles O39: a part with another verdict would give the whole frame that verdict, or a frame that ends within the part. -/
theorem properPrefixesOfFramesNeedMoreBytes : Obligations.ProperPrefixesOfFramesNeedMoreBytes := by
  intro c op pl w q hc h hq
  obtain ⟨f, -, -, hdecode⟩ := exists_decodeFn_of_encodeFn hc h
  have hwhole := hdecode []
  rw [List.append_nil] at hwhole
  have hsplit : w.take q ++ w.drop q = w := List.take_append_drop q w
  obtain hd | ⟨hp, hd⟩ | ⟨hb, -, r, hr, hd⟩ | ⟨g, n, hd⟩ := decodeFn_outcomes c (w.take q)
  · exact hd
  · have hne : w.take q ≠ [] := fun hnil => by rw [hnil] at hp; cases hp
    have hplaus : agrees c.sof (w.take q ++ w.drop q) = true := by
      rw [hsplit, agrees_iff_prefix]
      exact .inl (encodeFn_sof_prefix h)
    rw [(nextMarker_zero_eq_zero_iff c hne).mpr (agrees_of_agrees_append hplaus)] at hp
    cases hp
  · have hr' : r ≠ .noMarker := by obtain rfl | rfl | rfl := hr <;> decide
    obtain ⟨-, -, hd'⟩ := decodeFn_invalid_append hc hr' hd (w.drop q)
    rw [hsplit, hwhole] at hd'
    cases hd'
  · have hd' := decodeFn_frame_append hc hd (w.drop q)
    have hn := decodeFn_count_le hd
    rw [hsplit, hwhole] at hd'
    cases hd'
    rw [List.length_take] at hn
    omega

end Sys2Proof
end

section
/-!
PROOFS. A candidate that wants more bytes: how long it can be (70_reset_and_hazards.md R195) and what an illegal escape behind it
does (30_encoding.md R91, R94(c)).
-/

namespace Sys2Proof

/-- Where more bytes are needed, the buffer is empty, is shorter than the marker or begins with it. -/
theorem length_lt_or_sof_prefix {c : Config} {buf : Bytes} (hc : c.wf = true) (h : (decodeFn c buf).1 = .needMoreBytes) :
    buf.length < c.sof.length ∨ c.sof <+: buf := by
  obtain ⟨hsof, -⟩ := wf_clauses hc
  obtain ⟨rfl, -⟩ | ⟨-, -, hd⟩ | ⟨-, -, hshort, -⟩ | ⟨hb, hp, hs, -⟩ := decodeFn_cases c buf
  · exact .inl hsof
  · rw [hd] at h; cases h
  · exact .inl hshort
  · exact .inr (sof_prefix_of_nextMarker hb hp hs)

/-- Where more bytes are needed behind the marker, `take` wants more of some part of the escaped region; and where it rejects that
part in a longer buffer, DECODE does. -/
theorem exists_take_more {c : Config} {buf : Bytes} (hc : c.wf = true) (hs : c.sof <+: buf)
    (h : (decodeFn c buf).1 = .needMoreBytes) :
    ∃ k, k ≤ c.lw + c.maxBody + c.cw ∧ take c buf c.sof.length k = .more ∧
      ∀ t, take c (buf ++ t) c.sof.length k = .bad →
        decodeFn c (buf ++ t) = (.invalid .badEscape, nextMarker c (buf ++ t) 1) := by
  have hb := ne_nil_of_sof_prefix hc hs
  have hp := nextMarker_zero_of_sof_prefix hb hs
  have hsl := hs.length_le
  obtain ⟨hnil, -⟩ | ⟨hpos, -⟩ | ⟨-, -, hshort, -⟩ | ⟨-, -, -, ⟨hlen, -⟩ | ⟨-, hd⟩ | ⟨lenBytes, i1, hlen, ⟨-, hd⟩ |
    ⟨b, hbl, hmin, hmax, ⟨hbody, -⟩ | ⟨-, hd⟩ | ⟨rest, i2, -, ⟨-, hd⟩ | ⟨-, hd⟩⟩⟩⟩⟩ := decodeFn_cases c buf
  · exact absurd hnil hb
  · omega
  · omega
  · exact ⟨c.lw, by omega, hlen, fun t hbad => decodeFn_of_length_bad hc (sof_prefix_append_of_prefix hs t) hbad⟩
  · rw [hd] at h; cases h
  · rw [hd] at h; cases h
  · refine ⟨c.lw + (b + c.cw), by omega, by rw [take_add hc hlen, hbody, after_more], fun t hbad => ?_⟩
    have hlen' := take_append_of_ok hc hsl hlen t
    rw [take_add hc hlen', after_eq_bad_iff] at hbad
    exact decodeFn_of_body_bad hc (sof_prefix_append_of_prefix hs t) hlen' ⟨hbl, hmin, hmax⟩ hbad
  all_goals rw [hd] at h; cases h

/-- A buffer in which DECODE needs more bytes is shorter than a maximal frame. -/
theorem length_lt_maxWire {c : Config} {buf : Bytes} (hc : c.wf = true) (h : (decodeFn c buf).1 = .needMoreBytes) :
    buf.length < c.maxWire := by
  unfold Config.maxWire
  obtain hshort | hs := length_lt_or_sof_prefix hc h
  · omega
  · obtain ⟨k, hk, hmore, -⟩ := exists_take_more hc hs h
    have hlen := length_lt_of_take_more hmore
    have hmul := Nat.mul_le_mul_left (if c.escEn then 2 else 1) hk
    omega

/-- An illegal escape behind a candidate that needs more bytes is rejected as soon as it is there. -/
theorem decodeFn_of_illegalEscape {c : Config} {buf : Bytes} {b : Byte} (hc : c.wf = true) (he : c.escEn = true)
    (hs : c.sof <+: buf) (h : (decodeFn c buf).1 = .needMoreBytes) (hb : IllegalEscape c (buf.drop c.sof.length) b) (t : Bytes) :
    decodeFn c (buf ++ b :: t) = (.invalid .badEscape, nextMarker c (buf ++ b :: t) 1) := by
  obtain ⟨k, -, hmore, hreject⟩ := exists_take_more hc hs h
  rw [take_on he, after_eq_more_iff] at hmore
  refine hreject (b :: t) ?_
  rw [take_on he, after_eq_bad_iff, List.drop_append_of_le_length hs.length_le]
  exact unescape_append_of_illegalEscape hc he hmore hb t

/-- A marker byte is an illegal escape wherever it stands in the escaped region, if it is not ESC. -/
theorem illegalEscape_of_mem_sof {c : Config} {b : Byte} (hc : c.wf = true) (he : c.escEn = true) (hb : b ∈ c.sof)
    (hesc : c.esc ∉ c.sof) (l : Bytes) : IllegalEscape c l b := by
  obtain ⟨-, hsof, -, hmask⟩ := wf_escape hc he
  by_cases hlast : l.getLast? = some c.esc
  · exact .inr ⟨hlast, hmask b (hsof b hb)⟩
  · exact .inl ⟨hlast, fun h => hesc (h ▸ hb), hsof b hb⟩

theorem exists_cons_of_sof_prefix {c : Config} {w : Bytes} (hc : c.wf = true) (h : c.sof <+: w) : ∃ b t, b ∈ c.sof ∧ w = b :: t := by
  obtain ⟨b, bs, hsof⟩ := List.exists_cons_of_ne_nil (sof_ne_nil hc)
  obtain ⟨t, rfl⟩ := h
  exact ⟨b, bs ++ t, hsof ▸ List.mem_cons_self, by rw [hsof, List.cons_append]⟩

/-- `next_marker` does not pass a marker that stands behind at least one byte. -/
theorem nextMarker_append_le {c : Config} {x y : Bytes} (hx : 1 ≤ x.length) (hy : c.sof <+: y) :
    nextMarker c (x ++ y) 1 ≤ x.length := by
  refine nextMarker_le_of_agrees hx ?_
  rw [List.drop_left, agrees_iff_prefix]
  exact .inl hy

/-- Settles O42: the cut frame needs more bytes, and the other frame's first marker byte is an illegal escape behind it. -/
theorem aCutEscapedFrameIsRejectedAtTheNextMarker : Obligations.ACutEscapedFrameIsRejectedAtTheNextMarker := by
  intro c op op2 pl pl2 w w2 q hc he hesc h h2 hq hlt
  obtain ⟨hsof, -⟩ := wf_clauses hc
  have hmore := properPrefixesOfFramesNeedMoreBytes c op pl w q hc h hlt
  have hlen : (w.take q).length = q := List.length_take_of_le hlt.le
  have hcut : c.sof <+: w.take q := List.prefix_take_iff.mpr ⟨encodeFn_sof_prefix h, hq⟩
  have hnext := nextMarker_append_le (x := w.take q) (by omega) (encodeFn_sof_prefix h2)
  obtain ⟨b, t, hb, rfl⟩ := exists_cons_of_sof_prefix hc (encodeFn_sof_prefix h2)
  refine ⟨_, decodeFn_of_illegalEscape hc he hcut (by rw [hmore]) (illegalEscape_of_mem_sof hc he hb hesc _) t, ?_, by omega⟩
  exact le_nextMarker (by rw [List.length_append, List.length_cons]; omega)

end Sys2Proof

namespace Sys2Proof.Machine

/-- Settles O49: with nothing held a PUSH of one byte needs one more byte than there is, and a bounded buffer holds a maximal
frame. -/
theorem aStalledBufferIsShorterThanAMaximalFrame : Obligations.AStalledBufferIsShorterThanAMaximalFrame := by
  intro s hc hd
  have hlt := length_lt_maxWire hc (congrArg Prod.fst hd)
  refine ⟨hlt, fun hheld b => (pushEnabled_iff s [b]).mpr ⟨hheld, fun cap hcap => ?_⟩⟩
  have hmax := wf_cap hc hcap
  rw [List.length_singleton]
  omega

end Sys2Proof.Machine
end

section
/-!
PROOFS. A damaged frame is detected (41_decode.md R120), and the frame after a rejected stretch is recovered (R121).
-/

namespace Sys2Proof

/-- Settles O40: the changed byte stands in the body, so the fields are those of a frame with another body, for which the check
field is not the check value. -/
theorem aChangedBodyByteIsDetected : Obligations.AChangedBodyByteIsDetected := by
  intro c op pl pre post b b' hwell he h hne hpre hpost
  obtain ⟨hc, hsens⟩ := hwell
  obtain ⟨opc, lenBytes, chk, -, hfields, hchk, hw⟩ := encodeFn_eq_bytes h
  generalize opc ++ pl = body at hfields hchk hw
  rw [escape_off he] at hw
  have hfront : c.sof ++ lenBytes <+: pre ++ b :: post := ⟨body ++ chk, by rw [hw]; simp only [List.append_assoc]⟩
  have hback : chk <:+ (pre ++ [b]) ++ post := ⟨c.sof ++ (lenBytes ++ body), by simp [hw]⟩
  obtain ⟨p, rfl⟩ := List.prefix_of_prefix_length_le hfront (List.prefix_append pre _)
    (by rw [List.length_append, hfields.lengthWidth]; exact hpre)
  obtain ⟨p', rfl⟩ := List.suffix_of_suffix_length_le hback (List.suffix_append _ post) (by rw [hfields.checkWidth]; exact hpost)
  obtain rfl : body = p ++ b :: p' := by
    refine List.append_cancel_right (bs := chk) ?_
    simpa using hw.symm
  have hfields' : FrameFields c lenBytes (p ++ b' :: p') chk :=
    ⟨hfields.lengthWidth, by simpa using hfields.legal, hfields.checkWidth⟩
  have hdiffer : DifferInOneByte (lenBytes ++ (p ++ b :: p')) (lenBytes ++ (p ++ b' :: p')) :=
    ⟨lenBytes ++ p, p', b, b', hne, by simp, by simp⟩
  have hreject := decodeFn_of_bad_check hc hfields' (hchk ▸ hsens _ _ hdiffer) []
  have hbuf : c.sof ++ escape c (lenBytes ++ (p ++ b' :: p') ++ chk) ++ [] = c.sof ++ lenBytes ++ p ++ b' :: (p' ++ chk) := by
    simp [escape_off he]
  rw [hbuf] at hreject
  exact ⟨_, hreject, (nextMarker_one_bounds c (by simp)).1⟩

/-- A rejected stretch is rejected as a whole before a marker. -/
theorem decodeFn_rejected_append {c : Config} {x y : Bytes} {r : InvalidReason} (hc : c.wf = true) (hr : r ≠ .noMarker)
    (h : decodeFn c x = (.invalid r, x.length)) (hy : c.sof <+: y) : decodeFn c (x ++ y) = (.invalid r, x.length) := by
  obtain ⟨hne, hlen, hd⟩ := decodeFn_invalid_append hc hr h y
  have hpos : 1 ≤ x.length := List.length_pos_iff.mpr hne
  have hskip : nextMarker c (x ++ y) 1 = x.length :=
    le_antisymm (nextMarker_append_le hpos hy) (hlen.trans_le (nextMarker_le_nextMarker_append c hpos y))
  rw [hd, hskip]

/-- One event of OBSERVE: it holds the bytes in front, and the rest is observed behind them. -/
theorem Observes.event_append {c : Config} {x y buf' : Bytes} {off off' : Nat} {v : Verdict} {e : Event} {es : List Event}
    (hd : decodeFn c (x ++ y) = (v, x.length)) (he : eventOf off x v = some e)
    (rest : Observes c y (advanceOffset c off x.length) es buf' off') : Observes c (x ++ y) off (e :: es) buf' off' :=
  .event hd (by rwa [List.take_left]) (by rwa [List.drop_left])

/-- Settles O41: OBSERVE judges the first frame, then the stretch as a whole, then the other frame, and finds nothing more. -/
theorem theFrameAfterACorruptedOneIsRecovered : Obligations.TheFrameAfterACorruptedOneIsRecovered := by
  intro c op1 op3 off pl1 pl3 v1 x v3 r hc h1 h3 hr hx
  obtain ⟨f1, hop1, hmsg1, hd1⟩ := exists_decodeFn_of_encodeFn hc h1
  obtain ⟨f3, hop3, hmsg3, hd3⟩ := exists_decodeFn_of_encodeFn hc h3
  refine ⟨f1, f3, hop1, hmsg1, hop3, hmsg3, observeFn_of_observes hc ?_⟩
  have last := Observes.event_append (hd3 []) rfl (Observes.done (c := c)
    (advanceOffset c (advanceOffset c (advanceOffset c off v1.length) x.length) v3.length) rfl)
  rw [List.append_nil] at last
  have middle := Observes.event_append (decodeFn_rejected_append hc hr hx (encodeFn_sof_prefix h3)) rfl last
  rw [List.append_assoc]
  exact Observes.event_append (hd1 (x ++ v3)) rfl middle

end Sys2Proof
end

section
/-!
PROOFS. The decoder phase (10_state.md R29): DPHASE is the one row of the table whose condition holds.
-/

namespace Sys2Proof

theorem decodeFn_of_hunt {c : Config} {buf : Bytes} (hb : buf ≠ []) (hp : 0 < nextMarker c buf 0) :
    decodeFn c buf = (.invalid .noMarker, nextMarker c buf 0) := by
  rw [decodeFn, if_neg (fun h => hb (List.length_eq_zero_iff.mp h)), if_pos hp]

theorem decodeFn_of_short {c : Config} {buf : Bytes} (hp : nextMarker c buf 0 = 0) (hs : buf.length < c.sof.length) :
    decodeFn c buf = (.needMoreBytes, 0) := by
  rw [decodeFn, hp, if_neg (Nat.lt_irrefl 0), if_pos hs, ite_self]

/-- Where `take` has read the length field, the buffer is longer than the marker. -/
theorem sof_length_lt_of_take_ok {c : Config} {buf lenBytes : Bytes} {i : Nat} (hc : c.wf = true)
    (h : take c buf c.sof.length c.lw = .ok lenBytes i) : c.sof.length < buf.length := by
  obtain ⟨-, hlw, -⟩ := wf_clauses hc
  obtain ⟨hlen, -, hdrop⟩ := take_eq_ok h
  have hsize := congrArg List.length hdrop
  have hesc := escape_length c lenBytes
  simp only [List.length_drop, List.length_append] at hsize
  omega

/-- Behind the whole marker DPHASE is the phase of an unfinished frame or READY. -/
theorem dphase_of_marked {c : Config} {buf : Bytes} (hc : c.wf = true) (hp : nextMarker c buf 0 = 0)
    (hs : c.sof.length ≤ buf.length) :
    dphase c buf = if (decodeFn c buf).1 = .needMoreBytes then partialPhase c buf else .ready := by
  obtain ⟨hsof, -⟩ := wf_clauses hc
  rw [dphase, if_neg (by omega), if_neg (by omega), if_neg (by omega)]

/-- A verdict other than NeedMoreBytes at a plausible position needs the whole marker. -/
theorem sof_length_le_of_verdict {c : Config} {buf : Bytes} (hp : nextMarker c buf 0 = 0)
    (h : (decodeFn c buf).1 ≠ .needMoreBytes) : c.sof.length ≤ buf.length := by
  by_contra hshort
  rw [decodeFn_of_short hp (by omega)] at h
  exact h rfl

/-- The row whose condition holds is DPHASE. -/
theorem dphase_of_phaseRow {c : Config} {buf : Bytes} {p : Phase} (hc : c.wf = true) (h : phaseRow c buf p) :
    dphase c buf = p := by
  cases p with
  | idle =>
    have h0 : buf.length = 0 := h
    rw [dphase, if_pos h0]
  | hunt =>
    obtain ⟨hb, hp⟩ := h
    rw [dphase, if_neg (by omega), if_pos hp]
  | mark =>
    obtain ⟨hb, hp, hs⟩ := h
    rw [dphase, if_neg (by omega), if_neg (by omega), if_pos hs]
  | len =>
    obtain ⟨hp, hs, hmore, hlen⟩ := h
    rw [dphase_of_marked hc hp hs, if_pos hmore, partialPhase, hlen]
  | body =>
    obtain ⟨hp, hmore, lenBytes, i1, b, hlen, hb, -, -, hbody⟩ := h
    rw [dphase_of_marked hc hp (sof_length_lt_of_take_ok hc hlen).le, if_pos hmore, partialPhase, hlen]
    simp only [← hb, Int.toNat_natCast, hbody]
  | check =>
    obtain ⟨hp, hmore, lenBytes, i1, b, body, i2, hlen, hb, -, -, hbody, -⟩ := h
    rw [dphase_of_marked hc hp (sof_length_lt_of_take_ok hc hlen).le, if_pos hmore, partialPhase, hlen]
    simp only [← hb, Int.toNat_natCast, hbody]
  | ready =>
    obtain ⟨hp, hverdict⟩ := h
    have hne : (decodeFn c buf).1 ≠ .needMoreBytes := by
      obtain ⟨f, hf⟩ | ⟨r, hr⟩ := hverdict
      · rw [hf]; exact nofun
      · rw [hr]; exact nofun
    rw [dphase_of_marked hc hp (sof_length_le_of_verdict hp hne), if_neg hne]

/-- Some row's condition holds. -/
theorem exists_phaseRow {c : Config} (hc : c.wf = true) (buf : Bytes) : ∃ p, phaseRow c buf p := by
  obtain ⟨rfl, -⟩ | ⟨hp, hb, -⟩ | ⟨hb, hp, hs, -⟩ | ⟨hb, hp, hs, ⟨hlen, hd⟩ | ⟨-, hd⟩ | ⟨lenBytes, i1, hlen, ⟨-, hd⟩ |
    ⟨b, hbl, hmin, hmax, ⟨hbody, hd⟩ | ⟨-, hd⟩ | ⟨rest, i2, -, ⟨-, hd⟩ | ⟨-, hd⟩⟩⟩⟩⟩ := decodeFn_cases c buf
  · exact ⟨.idle, rfl⟩
  · exact ⟨.hunt, List.length_pos_iff.mpr hb, hp⟩
  · exact ⟨.mark, List.length_pos_iff.mpr hb, hp, hs⟩
  · exact ⟨.len, hp, hs, congrArg Prod.fst hd, hlen⟩
  · exact ⟨.ready, hp, .inr ⟨_, congrArg Prod.fst hd⟩⟩
  · exact ⟨.ready, hp, .inr ⟨_, congrArg Prod.fst hd⟩⟩
  · have hmore := congrArg Prod.fst hd
    obtain hb | ⟨body, i2, hb, hchk⟩ := take_add_eq_more hc (take_ok_bounds hs hlen).2 hbody
    · exact ⟨.body, hp, hmore, lenBytes, i1, b, hlen, hbl, hmin, hmax, hb⟩
    · exact ⟨.check, hp, hmore, lenBytes, i1, b, body, i2, hlen, hbl, hmin, hmax, hb, hchk⟩
  · exact ⟨.ready, hp, .inr ⟨_, congrArg Prod.fst hd⟩⟩
  · exact ⟨.ready, hp, .inr ⟨_, congrArg Prod.fst hd⟩⟩
  · exact ⟨.ready, hp, .inl ⟨_, congrArg Prod.fst hd⟩⟩

theorem phaseRow_iff {c : Config} (hc : c.wf = true) (buf : Bytes) (p : Phase) : phaseRow c buf p ↔ p = dphase c buf := by
  refine ⟨fun h => (dphase_of_phaseRow hc h).symm, ?_⟩
  rintro rfl
  obtain ⟨p, hp⟩ := exists_phaseRow hc buf
  rwa [dphase_of_phaseRow hc hp]

theorem phaseRow_of_dphase {c : Config} {buf : Bytes} {p : Phase} (hc : c.wf = true) (h : dphase c buf = p) : phaseRow c buf p :=
  (phaseRow_iff hc buf p).mpr h.symm

/-- The verdict a row's condition goes with. -/
theorem needMoreBytes_iff_of_phaseRow {c : Config} {buf : Bytes} {p : Phase} (h : phaseRow c buf p) :
    (decodeFn c buf).1 = .needMoreBytes ↔ p ∈ [Phase.idle, .mark, .len, .body, .check] := by
  cases p with
  | idle =>
    cases List.length_eq_zero_iff.mp h
    exact iff_of_true rfl (by decide)
  | hunt =>
    obtain ⟨hb, hp⟩ := h
    rw [decodeFn_of_hunt (List.length_pos_iff.mp hb) hp]
    exact iff_of_false nofun (by decide)
  | mark =>
    obtain ⟨-, hp, hs⟩ := h
    rw [decodeFn_of_short hp hs]
    exact iff_of_true rfl (by decide)
  | len =>
    obtain ⟨-, -, hmore, -⟩ := h
    exact iff_of_true hmore (by decide)
  | body =>
    obtain ⟨-, hmore, -⟩ := h
    exact iff_of_true hmore (by decide)
  | check =>
    obtain ⟨-, hmore, -⟩ := h
    exact iff_of_true hmore (by decide)
  | ready =>
    obtain ⟨-, ⟨f, hf⟩ | ⟨r, hr⟩⟩ := h
    · rw [hf]
      exact iff_of_false nofun (by decide)
    · rw [hr]
      exact iff_of_false nofun (by decide)

theorem needMoreBytes_iff_dphase {c : Config} (hc : c.wf = true) (buf : Bytes) :
    (decodeFn c buf).1 = .needMoreBytes ↔ dphase c buf ∈ [Phase.idle, .mark, .len, .body, .check] :=
  needMoreBytes_iff_of_phaseRow (phaseRow_of_dphase hc rfl)

/-- Settles O47: some row applies, and whichever applies is DPHASE. -/
theorem exactlyOnePhaseRowApplies : Obligations.ExactlyOnePhaseRowApplies :=
  fun _ buf hc => ⟨phaseRow_iff hc buf, needMoreBytes_iff_dphase hc buf⟩

end Sys2Proof
end

section
/-!
PROOFS. The transitions of the phase table (41_decode.md R122), one lemma per row.
-/

namespace Sys2Proof

/-- A byte that breaks the marker: HUNT. -/
theorem dphase_of_broken_marker {c : Config} {buf : Bytes} {m : Nat} (hc : c.wf = true) (hm : m < c.sof.length)
    (hlt : m < buf.length) (h : buf[m]? ≠ c.sof[m]?) : dphase c buf = .hunt := by
  have hb : buf ≠ [] := List.ne_nil_of_length_pos (by omega)
  have hnot : agrees c.sof buf ≠ true := fun hagree => h ((agrees_iff_getElem? _ _).mp hagree m (by omega))
  have hp : nextMarker c buf 0 ≠ 0 := mt (nextMarker_zero_eq_zero_iff c hb).mp hnot
  exact dphase_of_phaseRow hc ⟨by omega, by omega⟩

/-- The beginning of the marker: MARK. -/
theorem dphase_of_partial_marker {c : Config} {m : Nat} (hc : c.wf = true) (hpos : 0 < m) (hm : m < c.sof.length) :
    dphase c (c.sof.take m) = .mark := by
  have hlen : (c.sof.take m).length = m := List.length_take_of_le hm.le
  have hb : c.sof.take m ≠ [] := List.ne_nil_of_length_pos (by omega)
  have hp := (nextMarker_zero_eq_zero_iff c hb).mpr ((agrees_iff_prefix _ _).mpr (.inr (List.take_prefix m c.sof)))
  exact dphase_of_phaseRow hc ⟨by omega, hp, by omega⟩

/-- The marker alone: LEN. -/
theorem dphase_sof {c : Config} (hc : c.wf = true) : dphase c c.sof = .len := by
  obtain ⟨-, hlw, -⟩ := wf_clauses hc
  have hp := nextMarker_zero_of_sof_prefix (sof_ne_nil hc) List.prefix_rfl
  have hlen := take_at_end (c := c) (buf := c.sof) hlw
  have hd := decodeFn_of_length_more hc List.prefix_rfl hlen
  exact dphase_of_phaseRow hc ⟨hp, le_rfl, congrArg Prod.fst hd, hlen⟩

/-- The whole marker: LEN or further. -/
theorem dphase_of_sof_prefix {c : Config} {buf : Bytes} (hc : c.wf = true) (hs : c.sof <+: buf) :
    dphase c buf ∈ [Phase.len, .body, .check, .ready] := by
  obtain ⟨h0, hp, hl⟩ := decodeFn_guards hc hs
  have hrow := phaseRow_of_dphase hc (rfl : dphase c buf = _)
  generalize dphase c buf = p at hrow
  cases p with
  | idle => exact absurd hrow h0
  | hunt => exact absurd hrow.2 hp
  | mark => exact absurd hrow.2.2 hl
  | len => decide
  | body => decide
  | check => decide
  | ready => decide

/-- A verdict behind the whole marker: READY. -/
theorem dphase_of_verdict {c : Config} {buf : Bytes} (hc : c.wf = true) (hs : c.sof <+: buf)
    (h : (decodeFn c buf).1 ≠ .needMoreBytes) : dphase c buf = .ready := by
  have hp := nextMarker_zero_of_sof_prefix (ne_nil_of_sof_prefix hc hs) hs
  rw [dphase_of_marked hc hp hs.length_le, if_neg h]

/-- In HUNT the verdict is NoMarker. -/
theorem decodeFn_of_dphase_hunt {c : Config} {buf : Bytes} (hc : c.wf = true) (h : dphase c buf = .hunt) :
    decodeFn c buf = (.invalid .noMarker, nextMarker c buf 0) := by
  obtain ⟨hb, hp⟩ := phaseRow_of_dphase hc h
  exact decodeFn_of_hunt (List.length_pos_iff.mp hb) hp

/-- What stands at the next plausible position is not in HUNT. -/
theorem dphase_drop_nextMarker {c : Config} (hc : c.wf = true) (buf : Bytes) :
    dphase c (buf.drop (nextMarker c buf 0)) ≠ .hunt := by
  intro h
  obtain ⟨hb, hp⟩ := phaseRow_of_dphase hc h
  have hlt : nextMarker c buf 0 < buf.length := by
    rw [List.length_drop] at hb
    omega
  rw [(nextMarker_zero_eq_zero_iff c (List.length_pos_iff.mp hb)).mpr (agrees_drop_nextMarker hlt)] at hp
  cases hp

/-- The length field complete and legal: BODY. -/
theorem dphase_of_length {c : Config} {lenBytes : Bytes} {b : Nat} (hc : c.wf = true) (hlw : lenBytes.length = c.lw)
    (hb : LegalLength c lenBytes b) : dphase c (c.sof ++ escape c lenBytes) = .body := by
  obtain ⟨-, -, -, hopw, -⟩ := wf_clauses hc
  obtain ⟨heq, hmin, hmax⟩ := hb
  have hs : c.sof <+: c.sof ++ escape c lenBytes := List.prefix_append _ _
  have hlen := take_first_field hc lenBytes [] []
  rw [List.append_nil, List.append_nil, hlw, ← List.length_append] at hlen
  have hd := decodeFn_of_body_more hc hs hlen ⟨heq, hmin, hmax⟩ (take_at_end (by omega))
  exact dphase_of_phaseRow hc ⟨nextMarker_zero_of_sof_prefix (ne_nil_of_sof_prefix hc hs) hs, congrArg Prod.fst hd, lenBytes, _,
    b, hlen, heq, hmin, hmax, take_at_end (by omega)⟩

/-- The length field complete: past LEN. -/
theorem dphase_ne_len {c : Config} {buf lenBytes : Bytes} {i : Nat} (hc : c.wf = true)
    (h : take c buf c.sof.length c.lw = .ok lenBytes i) : dphase c buf ≠ .len := by
  intro hp
  obtain ⟨-, -, -, hmore⟩ := phaseRow_of_dphase hc hp
  rw [h] at hmore
  cases hmore

/-- The body complete: CHECK. -/
theorem dphase_of_body {c : Config} {lenBytes body : Bytes} (hc : c.wf = true) (hlw : lenBytes.length = c.lw)
    (hb : LegalLength c lenBytes body.length) : dphase c (c.sof ++ escape c (lenBytes ++ body)) = .check := by
  obtain ⟨-, -, -, -, -, hcw, -⟩ := wf_clauses hc
  obtain ⟨heq, hmin, hmax⟩ := hb
  have hs : c.sof <+: c.sof ++ escape c (lenBytes ++ body) := List.prefix_append _ _
  have hlen := take_first_field hc lenBytes body []
  have hbody := take_field hc lenBytes body [] []
  rw [List.append_nil, hlw] at hlen
  rw [List.append_nil, List.append_nil, ← List.length_append (as := c.sof) (bs := escape c (lenBytes ++ body))] at hbody
  have hmore := take_at_end (c := c) (buf := c.sof ++ escape c (lenBytes ++ body)) hcw
  have hd := decodeFn_of_body_more hc hs hlen ⟨heq, hmin, hmax⟩ (by rw [take_add hc hbody, hmore, after_more])
  exact dphase_of_phaseRow hc ⟨nextMarker_zero_of_sof_prefix (ne_nil_of_sof_prefix hc hs) hs, congrArg Prod.fst hd, lenBytes, _,
    body.length, body, _, hlen, heq, hmin, hmax, hbody, hmore⟩

/-- The body complete: past BODY. -/
theorem dphase_ne_body {c : Config} {buf lenBytes body : Bytes} {i j : Nat} (hc : c.wf = true)
    (hlen : take c buf c.sof.length c.lw = .ok lenBytes i) (hb : (body.length : Int) = bytesToNum lenBytes c.endian - c.lenAdj)
    (hbody : take c buf i body.length = .ok body j) : dphase c buf ≠ .body := by
  intro hp
  obtain ⟨-, -, lenBytes', i', b, hlen', hb', -, -, hmore⟩ := phaseRow_of_dphase hc hp
  rw [hlen] at hlen'
  cases hlen'
  obtain rfl : b = body.length := by omega
  rw [hbody] at hmore
  cases hmore

/-- The check field complete: a Frame or BadChecksum. -/
theorem decodeFn_of_complete_fields {c : Config} {lenBytes body chk : Bytes} (hc : c.wf = true)
    (h : FrameFields c lenBytes body chk) (t : Bytes) :
    (∃ f, (decodeFn c (c.sof ++ escape c (lenBytes ++ body ++ chk) ++ t)).1 = .frame f) ∨
      (decodeFn c (c.sof ++ escape c (lenBytes ++ body ++ chk) ++ t)).1 = .invalid .badChecksum := by
  by_cases hchk : bytesToNum chk c.endian = checkFn c (lenBytes ++ body)
  · exact .inl ⟨_, congrArg Prod.fst (decodeFn_of_good_check hc h hchk t)⟩
  · exact .inr (congrArg Prod.fst (decodeFn_of_bad_check hc h hchk t))

/-- LEN, BODY and CHECK stand behind the whole marker and need more bytes. -/
theorem partial_of_dphase {c : Config} {buf : Bytes} (hc : c.wf = true) (h : dphase c buf ∈ [Phase.len, .body, .check]) :
    c.sof <+: buf ∧ (decodeFn c buf).1 = .needMoreBytes := by
  have hrow := phaseRow_of_dphase hc (rfl : dphase c buf = _)
  generalize dphase c buf = p at h hrow
  have hmarked : nextMarker c buf 0 = 0 ∧ c.sof.length ≤ buf.length ∧ (decodeFn c buf).1 = .needMoreBytes := by
    cases p with
    | len =>
      obtain ⟨hp, hs, hmore, -⟩ := hrow
      exact ⟨hp, hs, hmore⟩
    | body =>
      obtain ⟨hp, hmore, _, _, _, hlen, -⟩ := hrow
      exact ⟨hp, (sof_length_lt_of_take_ok hc hlen).le, hmore⟩
    | check =>
      obtain ⟨hp, hmore, _, _, _, _, _, hlen, -⟩ := hrow
      exact ⟨hp, (sof_length_lt_of_take_ok hc hlen).le, hmore⟩
    | idle => simp at h
    | hunt => simp at h
    | mark => simp at h
    | ready => simp at h
  obtain ⟨hp, hs, hmore⟩ := hmarked
  obtain ⟨hsof, -⟩ := wf_clauses hc
  exact ⟨sof_prefix_of_nextMarker (List.ne_nil_of_length_pos (by omega)) hp hs, hmore⟩

/-- In READY the verdict is a Frame or a rejection of a candidate at the head. -/
theorem verdict_of_dphase_ready {c : Config} {buf : Bytes} (hc : c.wf = true) (h : dphase c buf = .ready) :
    (decodeFn c buf).1 ≠ .needMoreBytes ∧ (decodeFn c buf).1 ≠ .invalid .noMarker := by
  have hp := (phaseRow_of_dphase hc h).1
  have hmore : (decodeFn c buf).1 ≠ .needMoreBytes := by
    rw [ne_eq, needMoreBytes_iff_dphase hc, h]
    decide
  obtain hd | ⟨hpos, -⟩ | ⟨-, -, r, hr, hd⟩ | ⟨f, n, hd⟩ := decodeFn_outcomes c buf
  · exact absurd (congrArg Prod.fst hd) hmore
  · omega
  · obtain rfl | rfl | rfl := hr <;> simp [hd]
  · simp [hd]

end Sys2Proof

namespace Sys2Proof.Machine

/-- READY under DECODE: the verdict is returned and the bytes it judged are gone. -/
theorem decode_of_dphase_ready {s u : State} (hc : s.cfg.wf = true) (h : dphase s.cfg s.rxbuf = .ready)
    (hu : exec .decode s = .next u) :
    ∃ v n, u.returned = s.returned ++ [.decoded v n (s.rxbuf.take n)] ∧ v ≠ .needMoreBytes ∧ v ≠ .invalid .noMarker ∧
      1 ≤ n ∧ n ≤ s.rxbuf.length ∧ dphase u.cfg u.rxbuf = dphase s.cfg (s.rxbuf.drop n) := by
  rw [exec_decode] at hu
  cases hu
  obtain ⟨hmore, hno⟩ := verdict_of_dphase_ready hc h
  obtain ⟨hpos, hle⟩ := decodeFn_consumed_bounds hc hmore
  exact ⟨_, _, rfl, hmore, hno, hpos, hle, rfl⟩

/-- MARK, LEN, BODY and CHECK under TIMEOUT: the stalled candidate is dropped. -/
theorem timeout_of_dphase_stalled {s u : State} (hc : s.cfg.wf = true)
    (h : dphase s.cfg s.rxbuf ∈ [Phase.mark, .len, .body, .check]) (hu : exec .timeout s = .next u) :
    ∃ n, u.returned = s.returned ++ [.timedOut (.invalid .stalled) n (s.rxbuf.take n)] ∧ 1 ≤ n ∧ n ≤ s.rxbuf.length ∧
      dphase u.cfg u.rxbuf = dphase s.cfg (s.rxbuf.drop n) := by
  have hb : s.rxbuf ≠ [] := by
    intro hnil
    rw [hnil, dphase_nil] at h
    revert h
    decide
  have hmore := decodeFn_needMoreBytes ((needMoreBytes_iff_dphase hc s.rxbuf).mpr (List.mem_cons_of_mem _ h))
  rw [exec_timeout_of_stalled hb hmore] at hu
  cases hu
  obtain ⟨hpos, hle⟩ := nextMarker_one_bounds s.cfg hb
  exact ⟨_, rfl, hpos, hle, rfl⟩

end Sys2Proof.Machine

namespace Sys2Proof

/-- The length clauses of R122: a legal length leads to BODY or further, an illegal one to READY. -/
theorem dphase_past_length {c : Config} {lenBytes : Bytes} (hc : c.wf = true) (hlw : lenBytes.length = c.lw)
    (t : Bytes) : dphase c (c.sof ++ escape c lenBytes ++ t) ∈ [Phase.body, .check, .ready] := by
  have hread := take_first_field hc lenBytes [] t
  rw [List.append_nil, hlw] at hread
  have hpast := dphase_of_sof_prefix hc (sof_prefix_append c (escape c lenBytes) t)
  exact (List.mem_cons.mp hpast).resolve_left (dphase_ne_len hc hread)

/-- The body complete: CHECK or READY. -/
theorem dphase_past_body {c : Config} {lenBytes body : Bytes} (hc : c.wf = true) (hlw : lenBytes.length = c.lw)
    (hb : (body.length : Int) = bytesToNum lenBytes c.endian - c.lenAdj) (t : Bytes) :
    dphase c (c.sof ++ escape c (lenBytes ++ body) ++ t) ∈ [Phase.check, .ready] := by
  have hlen := take_first_field hc lenBytes body t
  have hbody := take_field hc lenBytes body [] t
  rw [hlw] at hlen
  rw [List.append_nil] at hbody
  have hpast := dphase_of_sof_prefix hc (sof_prefix_append c (escape c (lenBytes ++ body)) t)
  have hpast' := (List.mem_cons.mp hpast).resolve_left (dphase_ne_len hc hlen)
  exact (List.mem_cons.mp hpast').resolve_left (dphase_ne_body hc hlen hb hbody)

/-- A malformed length: READY with BadLength. -/
theorem dphase_of_illegal_length {c : Config} {lenBytes : Bytes} (hc : c.wf = true) (hlw : lenBytes.length = c.lw)
    (hb : (bytesToNum lenBytes c.endian : Int) - c.lenAdj < c.opw ∨ (c.maxBody : Int) < bytesToNum lenBytes c.endian - c.lenAdj)
    (t : Bytes) :
    dphase c (c.sof ++ escape c lenBytes ++ t) = .ready ∧
      (decodeFn c (c.sof ++ escape c lenBytes ++ t)).1 = .invalid .badLength := by
  have hread := take_first_field hc lenBytes [] t
  rw [List.append_nil, hlw] at hread
  have hs := sof_prefix_append c (escape c lenBytes) t
  have hd := congrArg Prod.fst (decodeFn_of_illegal_length hc hs hread hb)
  exact ⟨dphase_of_verdict hc hs (by rw [hd]; exact nofun), hd⟩

/-- The check field complete: READY. -/
theorem dphase_of_complete_fields {c : Config} {lenBytes body chk : Bytes} (hc : c.wf = true)
    (h : FrameFields c lenBytes body chk) (t : Bytes) :
    dphase c (c.sof ++ escape c (lenBytes ++ body ++ chk) ++ t) = .ready := by
  refine dphase_of_verdict hc (sof_prefix_append c _ t) ?_
  obtain ⟨f, hf⟩ | hbad := decodeFn_of_complete_fields hc h t
  · rw [hf]; exact nofun
  · rw [hbad]; exact nofun

/-- An illegal escape in LEN, BODY or CHECK: READY with BadEscape. -/
theorem dphase_of_illegalEscape {c : Config} {buf : Bytes} {b : Byte} (hc : c.wf = true) (he : c.escEn = true)
    (h : dphase c buf ∈ [Phase.len, .body, .check]) (hb : IllegalEscape c (buf.drop c.sof.length) b) (t : Bytes) :
    dphase c (buf ++ b :: t) = .ready ∧ (decodeFn c (buf ++ b :: t)).1 = .invalid .badEscape := by
  obtain ⟨hs, hmore⟩ := partial_of_dphase hc h
  have hd := congrArg Prod.fst (decodeFn_of_illegalEscape hc he hs hmore hb t)
  exact ⟨dphase_of_verdict hc (sof_prefix_append_of_prefix hs _) (by rw [hd]; exact nofun), hd⟩

/-- The body length of a length field between the bounds of R70, as a natural number. -/
theorem exists_legalLength {c : Config} {lenBytes : Bytes} (hmin : (c.opw : Int) ≤ bytesToNum lenBytes c.endian - c.lenAdj)
    (hmax : (bytesToNum lenBytes c.endian : Int) - c.lenAdj ≤ c.maxBody) : ∃ b, LegalLength c lenBytes b :=
  ⟨((bytesToNum lenBytes c.endian : Int) - c.lenAdj).toNat, by omega, by omega, by omega⟩

/-- Settles O48, row by row of the table. -/
theorem phasesMoveAsTheTableSays : Obligations.PhasesMoveAsTheTableSays := by
  intro c hc bodyLength
  obtain ⟨hsof, -⟩ := wf_clauses hc
  refine ⟨Machine.dphase_nil c, fun b bs hb => ?_, fun m => dphase_of_partial_marker hc, fun m b t hpos hm hb => ?_, dphase_sof hc,
    fun t => dphase_of_sof_prefix hc (List.prefix_append _ _), fun buf h => ?_, fun lenBytes t hlw hmin hmax => ?_,
    fun lenBytes t hlw hb => dphase_of_illegal_length hc hlw hb t, fun lenBytes body t hlw hb hmin hmax => ?_,
    fun lenBytes body chk t hlw hb hmin hmax hcw => ?_, fun buf t b he h hb => dphase_of_illegalEscape hc he h hb t, ?_, ?_, ?_⟩
  · rw [List.head?_eq_getElem?] at hb
    exact dphase_of_broken_marker hc hsof (Nat.succ_pos _) hb.symm
  · have hlen : (c.sof.take m).length = m := List.length_take_of_le hm.le
    have hbyte : (c.sof.take m ++ b :: t)[m]? = some b := by
      rw [List.getElem?_append_right (by omega), hlen, Nat.sub_self, List.getElem?_cons_zero]
    exact dphase_of_broken_marker hc hm (by simp [hlen]) (hbyte ▸ hb.symm)
  · rw [decodeFn_of_dphase_hunt hc h]
    exact ⟨rfl, dphase_drop_nextMarker hc buf⟩
  · obtain ⟨b, hb⟩ := exists_legalLength hmin hmax
    exact ⟨dphase_of_length hc hlw hb, dphase_past_length hc hlw t⟩
  · exact ⟨dphase_of_body hc hlw ⟨hb.symm, hmin, hmax⟩, dphase_past_body hc hlw hb.symm t⟩
  · have hfields : FrameFields c lenBytes body chk := ⟨hlw, ⟨hb.symm, hmin, hmax⟩, hcw⟩
    exact ⟨dphase_of_complete_fields hc hfields t, decodeFn_of_complete_fields hc hfields t⟩
  · rintro s u rfl h hu
    exact Machine.decode_of_dphase_ready hc h hu
  · rintro s u rfl h hu
    exact Machine.timeout_of_dphase_stalled hc h hu
  · rintro s rfl
    exact ⟨_, Machine.exec_reset s, Machine.dphase_nil s.cfg⟩

end Sys2Proof
end

section
/-!
PROOFS. The rows of the operation table that bring bytes: PUSH that waits, FRAME and ESC_PAIR (30_encoding.md sections 1 and 4,
20_memory.md R47).
-/

namespace Sys2Proof.Machine

theorem exec_push_of_enabled {s : State} {b : Bytes} (h : s.pushEnabled b = true) :
    exec (.push b) s = .next { s with rxbuf := s.rxbuf ++ b } := by rw [exec_push, receive_enabled h]

theorem exec_push_of_not_enabled {s : State} {b : Bytes} (h : s.pushEnabled b = false) :
    exec (.push b) s = .next { s with rxHeld := s.rxHeld ++ [b] } := by rw [exec_push, receive_held h]

/-- Settles O6: in either case the PUSH is not enabled. -/
theorem aPushThatIsNotEnabledWaits : Obligations.APushThatIsNotEnabledWaits := by
  refine fun s b => ⟨fun cap hcap hlt => exec_push_of_not_enabled (Bool.eq_false_iff.mpr fun hen => ?_),
    fun hheld => exec_push_of_not_enabled (Bool.eq_false_iff.mpr fun hen => ?_)⟩
  · obtain ⟨-, hfits⟩ := (pushEnabled_iff s b).mp hen
    have hle := hfits cap hcap
    omega
  · obtain ⟨hnone, -⟩ := (pushEnabled_iff s b).mp hen
    exact hheld hnone

/-- Settles O13: FRAME is the PUSH of what ENCODE returns, and is refused where ENCODE refuses. -/
theorem frameArrivesAsItsWireBytes : Obligations.FrameArrivesAsItsWireBytes := by
  refine fun s op msg hc => ⟨fun hop hmax => ?_, fun hop => ?_, fun hop hlong => ?_⟩
  · obtain ⟨w, hw⟩ := exists_encodeFn_bytes hc hop hmax
    have hpush : exec (.frame op msg) s = exec (.push w) s := exec_frame_of_bytes hw
    exact ⟨w, exec_encode_of_answer hw, hpush, fun hen => hpush.trans (exec_push_of_enabled hen),
      fun hen => hpush.trans (exec_push_of_not_enabled hen)⟩
  · exact exec_frame_of_refused (encodeFn_opcodeRange hop msg)
  · exact exec_frame_of_refused (encodeFn_bodyTooLong hop hlong)

/-- Settles O14: ESC_PAIR is the PUSH of its two bytes where there is an escape layer. -/
theorem escPairArrivesAsTwoBytes : Obligations.EscPairArrivesAsTwoBytes := by
  refine fun s x => ⟨fun he => ?_, fun he => exec_escPair_of_not_escEn he x⟩
  have hpush : exec (.escPair x) s = exec (.push [s.cfg.esc, x]) s := exec_escPair_of_escEn he x
  exact ⟨hpush, fun hen => hpush.trans (exec_push_of_enabled hen), fun hen => hpush.trans (exec_push_of_not_enabled hen)⟩

/-- Settles O12: neither arm looks at the state. -/
theorem reservedSelectCodesAreRefused : Obligations.ReservedSelectCodesAreRefused := fun _ => ⟨rfl, rfl⟩

end Sys2Proof.Machine
end

section
/-!
PROOFS. Under a legal configuration every operation completes (60_exceptions.md R160, 70_reset_and_hazards.md R205).
-/

namespace Sys2Proof

/-- Under a legal configuration ENCODE always has an answer. -/
theorem exists_encodeFn {c : Config} (hc : c.wf = true) (op : Nat) (pl : Bytes) : ∃ r, encodeFn c op pl = some r := by
  obtain hop | hop := Nat.lt_or_ge op (2 ^ (8 * c.opw))
  · obtain hlong | hmax := Nat.lt_or_ge c.maxBody (c.opw + pl.length)
    · exact ⟨_, encodeFn_bodyTooLong hop hlong⟩
    · obtain ⟨w, hw⟩ := exists_encodeFn_bytes hc hop hmax
      exact ⟨_, hw⟩
  · exact ⟨_, encodeFn_opcodeRange hop pl⟩

end Sys2Proof

namespace Sys2Proof.Machine

/-- An instruction answers a next state if it is well formed, and does not fault in any case. -/
def Completes (i : Instr) (s : State) : Prop :=
  (i.wf s.cfg = true → ∃ t, exec i s = .next t) ∧ ∀ f, exec i s ≠ .fault f

theorem completes_of_next {i : Instr} {s t : State} (h : exec i s = .next t) : Completes i s :=
  ⟨fun _ => ⟨t, h⟩, fun f hf => by rw [h] at hf; cases hf⟩

theorem completes_frame {s : State} (hc : s.cfg.wf = true) (op : Nat) (msg : Bytes) : Completes (.frame op msg) s := by
  obtain ⟨⟨w⟩ | ⟨r⟩, hr⟩ := exists_encodeFn hc op msg
  · exact completes_of_next (exec_frame_of_bytes hr)
  · refine ⟨fun hwf => ?_, fun f hf => by rw [exec_frame_of_refused hr] at hf; cases hf⟩
    simp only [Instr.wf, Bool.and_eq_true, decide_eq_true_eq] at hwf
    obtain ⟨w, hw⟩ := exists_encodeFn_bytes hc hwf.1 hwf.2
    exact ⟨_, exec_frame_of_bytes hw⟩

theorem completes_escPair (s : State) (x : Byte) : Completes (.escPair x) s := by
  refine ⟨fun he => ⟨_, exec_escPair_of_escEn he x⟩, fun f hf => ?_⟩
  cases he : s.cfg.escEn with
  | true => rw [exec_escPair_of_escEn he] at hf; cases hf
  | false => rw [exec_escPair_of_not_escEn he] at hf; cases hf

/-- Settles O16: the core functions have an answer under a legal configuration, and only the wire patterns and the reserved
codes are refused. -/
theorem legalInstancesAlwaysComplete : Obligations.LegalInstancesAlwaysComplete := by
  intro i s hc
  cases i with
  | encode op pl =>
    obtain ⟨r, hr⟩ := exists_encodeFn hc op pl
    exact completes_of_next (exec_encode_of_answer hr)
  | push b => exact completes_of_next (exec_push b s)
  | decode => exact completes_of_next (exec_decode s)
  | observe =>
    obtain ⟨⟨es, buf, off⟩, hr⟩ := exists_observeFn hc s.rxbuf s.rxoff
    exact completes_of_next (exec_observe_of_answer hr)
  | timeout =>
    obtain ⟨-, hnext⟩ | ⟨-, -, hnext⟩ := exec_timeout_cases s
    · exact completes_of_next hnext
    · exact completes_of_next hnext
  | reset => exact completes_of_next (exec_reset s)
  | reserved6 => exact ⟨nofun, nofun⟩
  | reserved7 => exact ⟨nofun, nofun⟩
  | frame op msg => exact completes_frame hc op msg
  | escPair x => exact completes_escPair s x

theorem exists_perform {i : Instr} {s : State} (hc : s.cfg.wf = true) (hi : i.wf s.cfg = true) : ∃ t, perform i s = .next t := by
  obtain ⟨t, ht⟩ := (legalInstancesAlwaysComplete i s hc).1 hi
  exact ⟨_, perform_next_iff.mpr ⟨t, ht, rfl⟩⟩

/-- A run is a run of its first operations and then of the rest. -/
theorem runInstrs_append_next_iff {is js : List Instr} {s t : State} :
    runInstrs (is ++ js) s = .next t ↔ ∃ u, runInstrs is s = .next u ∧ runInstrs js u = .next t := by
  induction is generalizing s with
  | nil => simp
  | cons i is ih =>
    simp only [List.cons_append, runInstrs_cons_next_iff, ih]
    constructor
    · rintro ⟨u, hu, v, hv, ht⟩
      exact ⟨v, ⟨u, hu, hv⟩, ht⟩
    · rintro ⟨v, ⟨u, hu, hv⟩, ht⟩
      exact ⟨u, hu, v, hv, ht⟩

theorem runPrefix_succ_next_iff {ops : Nat → Instr} {n : Nat} {s u : State} :
    runPrefix ops (n + 1) s = .next u ↔ ∃ t, runPrefix ops n s = .next t ∧ perform (ops n) t = .next u := by
  simp only [runPrefix, List.range_succ, List.map_append, List.map_singleton, runInstrs_append_next_iff,
    runInstrs_cons_next_iff, runInstrs_nil, Host.Outcome.next.injEq, exists_eq_right]

/-- The first `n` operations of an infinite run complete, under the configuration they began with. -/
theorem exists_runPrefix {ops : Nat → Instr} {s : State} (hc : s.cfg.wf = true) (hops : ∀ n, (ops n).wf s.cfg = true) (n : Nat) :
    ∃ t, runPrefix ops n s = .next t ∧ t.cfg = s.cfg := by
  induction n with
  | zero => exact ⟨s, rfl, rfl⟩
  | succ n ih =>
    obtain ⟨t, ht, hcfg⟩ := ih
    obtain ⟨u, hu⟩ := exists_perform (i := ops n) (hcfg ▸ hc) (hcfg ▸ hops n)
    exact ⟨u, runPrefix_succ_next_iff.mpr ⟨t, ht, hu⟩, (perform_cfg hu).trans hcfg⟩

/-- Settles O57: each operation completes on what the earlier ones left, since these leave the configuration. -/
theorem infiniteRunsNeverHalt : Obligations.InfiniteRunsNeverHalt := by
  intro ops s hc hops n
  obtain ⟨t, ht, hcfg⟩ := exists_runPrefix hc hops n
  obtain ⟨u, hu⟩ := exists_perform (i := ops n) (hcfg ▸ hc) (hcfg ▸ hops n)
  exact ⟨t, u, ht, hu, runPrefix_succ_next_iff.mpr ⟨t, ht, hu⟩⟩

end Sys2Proof.Machine
end

section
/-!
PROOFS. What an operation reads and what it returns (10_state.md R20, R24, R26; 60_exceptions.md R161).
-/

namespace Sys2Proof.Machine

/-- `State.receive` reads neither boundary field. -/
theorem receive_with_boundary (s : State) (b : Bytes) (ins : List Input) (past : List Result) :
    State.receive { s with inputs := ins, returned := past } b = { s.receive b with inputs := ins, returned := past } := by
  have hen : State.pushEnabled { s with inputs := ins, returned := past } b = s.pushEnabled b := rfl
  unfold State.receive
  rw [hen]
  split <;> rfl

/-- An effect appends what it returns, and has the same effect beside any other boundary fields. -/
theorem Effect.with_boundary {i : Instr} {s t : State} (h : Effect s i t) :
    ∃ rs, t.returned = s.returned ++ rs ∧ ∀ (ins : List Input) (past : List Result),
      Effect { s with inputs := ins, returned := past } i { t with inputs := ins, returned := past ++ rs } := by
  have received (b : Bytes) (hb : ∀ ins past, Effect { s with inputs := ins, returned := past } i
      (State.receive { s with inputs := ins, returned := past } b)) :
      ∃ rs, (s.receive b).returned = s.returned ++ rs ∧ ∀ (ins : List Input) (past : List Result),
        Effect { s with inputs := ins, returned := past } i { s.receive b with inputs := ins, returned := past ++ rs } := by
    refine ⟨[], by simp, fun ins past => ?_⟩
    rw [List.append_nil, ← receive_with_boundary]
    exact hb ins past
  cases h with
  | encoded h => exact ⟨_, rfl, fun ins past => .encoded (s := { s with inputs := ins, returned := past }) h⟩
  | pushed b => exact received b fun ins past => .pushed b
  | framed h => exact received _ fun ins past => .framed h
  | paired h => exact received _ fun ins past => .paired h
  | decoded h => exact ⟨_, rfl, fun ins past => .decoded (s := { s with inputs := ins, returned := past }) h⟩
  | observed h => exact ⟨_, rfl, fun ins past => .observed (s := { s with inputs := ins, returned := past }) h⟩
  | idled h => exact ⟨_, rfl, fun ins past => .idled (s := { s with inputs := ins, returned := past }) h⟩
  | dropped hb hm => exact ⟨_, rfl, fun ins past => .dropped (s := { s with inputs := ins, returned := past }) hb hm⟩
  | cleared =>
    refine ⟨[], by simp, fun ins past => ?_⟩
    rw [List.append_nil]
    exact .cleared

/-- Settles O17: an operation's effect is one beside any boundary fields. -/
theorem returnedValuesAreReadByNothing : Obligations.ReturnedValuesAreReadByNothing := by
  intro i s t h
  obtain ⟨rs, hrs, hany⟩ := (effect_of_exec h).with_boundary
  exact ⟨rs, hrs, fun ins past => exec_next_iff.mpr (hany ins past)⟩

/-- Settles O18: of the two, only DECODE writes the offset, and neither judges anything by it. -/
theorem offsetIsNotReadByDecodeOrEncode : Obligations.OffsetIsNotReadByDecodeOrEncode := by
  intro s off op pl t u ht hu
  cases effect_of_exec ht with
  | decoded hd =>
    cases effect_of_exec hu with
    | encoded he =>
      exact ⟨_, exec_next_iff.mpr (.decoded (s := { s with rxoff := off }) hd),
        exec_next_iff.mpr (.encoded (s := { s with rxoff := off }) he)⟩

theorem encodeCode_mem (r : EncodeResult) : encodeCode r ∈ [(4, 0), (5, 1), (5, 2)] := by
  rcases r with w | (_ | _) <;> simp [encodeCode]

/-- The verdicts of DECODE have the codes 0, 1 and 2.1 to 2.4: Stalled is none of them. -/
theorem verdictCode_mem {c : Config} {buf : Bytes} {v : Verdict} {n : Nat} (h : decodeFn c buf = (v, n)) :
    verdictCode v ∈ [(0, 0), (1, 0), (2, 1), (2, 2), (2, 3), (2, 4)] := by
  obtain hd | ⟨-, hd⟩ | ⟨-, -, r, hr, hd⟩ | ⟨f, n', hd⟩ := decodeFn_outcomes c buf <;> cases hd.symm.trans h
  · simp [verdictCode]
  · simp [verdictCode, reasonCode]
  · obtain rfl | rfl | rfl := hr <;> simp [verdictCode, reasonCode]
  · simp [verdictCode]

/-- An event has the code of its verdict, which is not NeedMoreBytes. -/
theorem eventCode_of_eventOf {off : Nat} {raw : Bytes} {v : Verdict} {e : Event} (h : eventOf off raw v = some e) :
    eventCode e = verdictCode v ∧ verdictCode v ≠ (1, 0) := by
  obtain ⟨f, rfl, rfl⟩ | ⟨r, rfl, rfl⟩ := eventOf_eq_some h
  · exact ⟨rfl, by simp [verdictCode]⟩
  · exact ⟨rfl, by cases r <;> simp [verdictCode, reasonCode]⟩

theorem eventCode_mem {c : Config} {buf buf' : Bytes} {off off' : Nat} {es : List Event} (h : Observes c buf off es buf' off')
    (e : Event) (he : e ∈ es) : eventCode e ∈ [(0, 0), (2, 1), (2, 2), (2, 3), (2, 4)] := by
  obtain ⟨b, o, v, n, hd, hev⟩ := h.exists_verdict he
  obtain ⟨hcode, hne⟩ := eventCode_of_eventOf hev
  have hmem := verdictCode_mem hd
  rw [hcode]
  simp only [List.mem_cons, hne, false_or] at hmem ⊢
  exact hmem

/-- Settles O19: effect by effect. -/
theorem eachOperationReturnsItsOwnOutcomes : Obligations.EachOperationReturnsItsOwnOutcomes := by
  intro i s t h
  cases effect_of_exec h with
  | encoded _ => exact ⟨_, rfl, _, rfl, encodeCode_mem _⟩
  | pushed b => exact ⟨[], by simp, rfl⟩
  | framed _ => exact ⟨[], by simp, rfl⟩
  | paired _ => exact ⟨[], by simp, rfl⟩
  | decoded hd => exact ⟨_, rfl, _, _, _, rfl, verdictCode_mem hd⟩
  | observed ho => exact ⟨_, rfl, _, rfl, eventCode_mem (observes_of_observeFn ho)⟩
  | idled _ => exact ⟨_, rfl, _, _, _, rfl, by simp [timeoutCode]⟩
  | dropped _ _ => exact ⟨_, rfl, _, _, _, rfl, by simp [timeoutCode, reasonCode]⟩
  | cleared => exact ⟨[], by simp, rfl⟩

@[simp] theorem txStream_append (rs rs' : List Result) : txStream (rs ++ rs') = txStream rs ++ txStream rs' :=
  List.filterMap_append

/-- The byte sequence an operation adds to the transmit stream (20_memory.md R49). -/
def transmits (c : Config) : Instr → Option Bytes
  | .encode op pl => frameWire c op pl
  | _ => none

theorem txStream_encoded {c : Config} {op : Nat} {pl : Bytes} {r : EncodeResult} (h : encodeFn c op pl = some r) :
    txStream [.encoded r] = (frameWire c op pl).toList := by
  unfold frameWire
  cases r <;> simp [h, txStream]

/-- ENCODE adds its frame to the transmit stream, and no other operation adds anything. -/
theorem Effect.txStream {i : Instr} {s t : State} (h : Effect s i t) :
    txStream t.returned = txStream s.returned ++ (transmits s.cfg i).toList := by
  cases h with
  | encoded he => rw [ret_returned, txStream_append, txStream_encoded he, transmits]
  | pushed b => simp [transmits]
  | framed _ => simp [transmits]
  | paired _ => simp [transmits]
  | decoded _ => simp [transmits, Sys2Proof.txStream]
  | observed _ => simp [transmits, Sys2Proof.txStream]
  | idled _ => simp [transmits, Sys2Proof.txStream]
  | dropped _ _ => simp [transmits, Sys2Proof.txStream]
  | cleared => simp [transmits]

/-- Settles O20: only ENCODE transmits. -/
theorem onlyEncodeProducesTransmitBytes : Obligations.OnlyEncodeProducesTransmitBytes := by
  intro i s t h hi
  have hnone : transmits s.cfg i = none := by
    cases i with
    | encode op pl => exact absurd rfl (hi op pl)
    | _ => rfl
  rw [(effect_of_exec h).txStream, hnone, Option.toList_none, List.append_nil]

theorem runInstrs_txStream {ops : List Instr} {s t : State} (h : runInstrs ops s = .next t) :
    txStream t.returned = txStream s.returned ++ ops.filterMap (transmits s.cfg) := by
  induction ops generalizing s with
  | nil =>
    cases h
    simp
  | cons i is ih =>
    obtain ⟨u, hu, hrun⟩ := runInstrs_cons_next_iff.mp h
    have hcfg := perform_cfg hu
    obtain ⟨v, hv, rfl⟩ := perform_effect hu
    rw [ih hrun, receiveTurn_returned, hv.txStream, hcfg, List.filterMap_cons]
    cases transmits s.cfg i <;> simp

/-- Settles O54: the stream of a run is that of its operations in order. -/
theorem transmitStreamIsInEncodeOrder : Obligations.TransmitStreamIsInEncodeOrder := by
  intro ops s t h
  rw [runInstrs_txStream h]
  rfl

end Sys2Proof.Machine
end

section
/-!
PROOFS. A step of the machine, and the tables (20_memory.md R50, 30_encoding.md sections 3 and 5).
-/

namespace Sys2Proof

/-- A frame is no longer than a maximal one (00_scope.md R14(g)). -/
theorem encodeFn_length_le_maxWire {c : Config} {op : Nat} {pl w : Bytes} (h : encodeFn c op pl = some (.bytes w)) :
    w.length ≤ c.maxWire := by
  obtain ⟨opc, lenBytes, chk, hopc, hfields, -, rfl⟩ := encodeFn_eq_bytes h
  have hmax := hfields.legal.max
  have hlen := escape_length c (lenBytes ++ (opc ++ pl) ++ chk)
  simp only [List.length_append, hfields.lengthWidth, hfields.checkWidth] at hlen hmax ⊢
  unfold Config.maxWire
  cases he : c.escEn with
  | true =>
    simp only [if_true]
    omega
  | false =>
    simp only [escape_off he, List.length_append, hfields.lengthWidth, hfields.checkWidth, Bool.false_eq_true, if_false]
    omega

end Sys2Proof

namespace Sys2Proof.Machine

theorem step_undecodable {s : State} {inp : Input} {rest : List Input} {e : DecodeError} (h : s.inputs = inp :: rest)
    (hd : decodeInstr s.cfg inp = .error e) : step s = .refused (.undecodable e) := by
  simp [step, h, hd]

/-- Settles O2: the three branches of `step`. -/
theorem stepRunsTheDecodedInstruction : Obligations.StepRunsTheDecodedInstruction := by
  refine ⟨fun s inp rest i hin hdec => ⟨step_decoded hin hdec, fun t ht => ⟨?_, receiveTurn_of_nothing_held⟩⟩,
    fun s => step_idle, fun s inp rest e => step_undecodable⟩
  rw [step_decoded hin hdec, ht, afterInstr]

/-- Settles O3: fixed words. -/
theorem tableWordsDecodeToTheirRows : Obligations.TableWordsDecodeToTheirRows :=
  ⟨rfl, rfl, rfl, rfl, rfl, rfl, rfl, rfl, by decide +kernel, by decide +kernel⟩

/-- Settles O24: fixed data. -/
theorem checkFunctionsGiveTheListedValues : Obligations.CheckFunctionsGiveTheListedValues := by
  unfold Obligations.CheckFunctionsGiveTheListedValues
  decide +kernel

/-- Settles O21: `execAt` writes one place of the list, with what the operation and the turn leave there. -/
theorem instancesAreIndependent : Obligations.InstancesAreIndependent := by
  intro k i all all' h
  unfold execAt at h
  cases hk : all[k]? with
  | none =>
    rw [hk] at h
    cases h
    exact ⟨rfl, fun _ _ => rfl, nofun⟩
  | some s =>
    rw [hk] at h
    cases hp : perform i s with
    | next s' =>
      simp only [hp, Host.Outcome.next.injEq] at h
      subst h
      obtain ⟨t, ht, rfl⟩ := perform_next_iff.mp hp
      refine ⟨List.length_set, fun j hj => List.getElem?_set_ne hj.symm, ?_⟩
      rintro _ ⟨⟩
      exact ⟨t, ht, List.getElem?_set_self (List.getElem?_eq_some_iff.mp hk).1⟩
    | fault f => simp only [hp] at h; cases h
    | refused r => simp only [hp] at h; cases h

/-- Consuming nothing changes nothing. -/
theorem consume_zero {s : State} (hoff : s.rxoff < 2 ^ s.cfg.offw) : s.consume 0 = s := by
  rw [State.consume, List.drop_zero, advanceOffset_zero hoff]

/-- DECODE with nothing to judge. -/
theorem exec_decode_of_needMoreBytes {s : State} (h : (decodeFn s.cfg s.rxbuf).1 = .needMoreBytes)
    (hoff : s.rxoff < 2 ^ s.cfg.offw) : exec .decode s = .next (s.ret (.decoded .needMoreBytes 0 [])) := by
  rw [exec_decode, decodeFn_needMoreBytes h, List.take_zero, consume_zero hoff]

/-- OBSERVE with nothing to judge. -/
theorem exec_observe_of_needMoreBytes {s : State} (h : (decodeFn s.cfg s.rxbuf).1 = .needMoreBytes) :
    exec .observe s = .next (s.ret (.observed [])) :=
  exec_observe_of_answer (observeFn_of_needMoreBytes h s.rxoff)

/-- Settles O43: with nothing to judge nothing is consumed. -/
theorem needMoreBytesChangesNothing : Obligations.NeedMoreBytesChangesNothing := fun _ h hoff =>
  ⟨exec_decode_of_needMoreBytes h hoff, exec_observe_of_needMoreBytes h⟩

/-- Bytes of one whole frame fit an empty buffer. -/
theorem pushEnabled_of_encodeFn {s : State} {op : Nat} {pl w : Bytes} (hc : s.cfg.wf = true) (hheld : s.rxHeld = [])
    (hbuf : s.rxbuf = []) (h : encodeFn s.cfg op pl = some (.bytes w)) : s.pushEnabled w = true := by
  refine (pushEnabled_iff s w).mpr ⟨hheld, fun cap hcap => ?_⟩
  rw [hbuf, List.length_nil, Nat.zero_add]
  exact (encodeFn_length_le_maxWire h).trans (wf_cap hc hcap)

/-- A step on a line input whose bytes fit appends them. -/
theorem step_line {s : State} {w : Bytes} {rest : List Input} (hin : s.inputs = .line w :: rest)
    (hen : s.pushEnabled w = true) :
    step s = .next { s with inputs := rest, rxbuf := s.rxbuf ++ w } := by
  have hheld := ((pushEnabled_iff s w).mp hen).1
  have hexec : exec (decodeLine s.cfg w) { s with inputs := rest } = .next { s with inputs := rest, rxbuf := s.rxbuf ++ w } := by
    have hsame := exec_decodeLine { s with inputs := rest } w
    exact hsame.trans (exec_push_of_enabled (s := { s with inputs := rest }) hen)
  rw [step_decoded hin (rfl : decodeInstr s.cfg (.line w) = .ok (decodeLine s.cfg w)), hexec, afterInstr,
    receiveTurn_of_nothing_held (s := { s with inputs := rest, rxbuf := s.rxbuf ++ w }) hheld]

/-- A step on a DECODE command with nothing held judges the buffer. -/
theorem step_decode {s : State} {rest : List Input} {v : Verdict} {n : Nat} (hin : s.inputs = .command 2 0 [] :: rest)
    (hheld : s.rxHeld = []) (hd : decodeFn s.cfg s.rxbuf = (v, n)) :
    step s = .next ((State.consume { s with inputs := rest } n).ret (.decoded v n (s.rxbuf.take n))) := by
  have hexec := exec_next_iff.mpr (Effect.decoded (s := { s with inputs := rest }) hd)
  rw [step_decoded hin (rfl : decodeInstr s.cfg (.command 2 0 []) = .ok .decode), hexec, afterInstr]
  exact congrArg Host.Outcome.next (receiveTurn_of_nothing_held hheld)

/-- A run of a machine begins with its first step. -/
theorem run_succ_of_step {M : Host.Core} {k : Nat} {s s' : M.State} (h : M.step s = .next s') : M.run (k + 1) s = M.run k s' := by
  rw [Host.Core.run, h]

/-- Settles O58: the first step puts the frame into the empty buffer, the second takes it out. -/
theorem aFrameOnTheLineIsReturnedByTheNextDecode : Obligations.AFrameOnTheLineIsReturnedByTheNextDecode := by
  intro s op pl w rest hc hheld hbuf h hin
  obtain ⟨f, hop, hmsg, hdecode⟩ := exists_decodeFn_of_encodeFn hc h
  have hwhole := hdecode []
  rw [List.append_nil] at hwhole
  have first := step_line hin (pushEnabled_of_encodeFn hc hheld hbuf h)
  rw [hbuf, List.nil_append] at first
  have second := step_decode (s := { s with inputs := .command 2 0 [] :: rest, rxbuf := w }) rfl hheld hwhole
  simp only [State.consume, State.ret, List.drop_length, List.take_length] at second
  exact ⟨_, f, (run_succ_of_step (M := core) first).trans (run_succ_of_step (M := core) second), hop, hmsg, by rw [hbuf]; rfl⟩

end Sys2Proof.Machine
end

section
/-!
PROOFS. A run that is over (70_reset_and_hazards.md R205).
-/

namespace Sys2Proof.Machine

/-- Nothing arrives where nothing is left to arrive. -/
theorem streamLeft_cons {s : State} {inp : Input} {rest : List Input} {i : Instr} (hin : s.inputs = inp :: rest)
    (hdec : decodeInstr s.cfg inp = .ok i) :
    s.streamLeft = arriving s.cfg i ++ State.streamLeft { s with inputs := rest } := by
  simp [State.streamLeft, hin, hdec]

/-- A receive of nothing, with nothing held, changes nothing. -/
theorem receive_nil {s : State} (hheld : s.rxHeld = []) (hcap : fits s.cfg.rxcap s.rxbuf.length = true) : s.receive [] = s := by
  have hen : s.pushEnabled [] = true := by simp [State.pushEnabled, hheld, hcap]
  rw [receive_enabled hen, List.append_nil]

/-- An operation that is no TIMEOUT and no RESET and brings no bytes changes nothing but the returned values, where there is
nothing to judge and nothing held. -/
theorem Effect.of_drained {i : Instr} {s t : State} (h : Effect s i t) (hs : s.Sound) (hheld : s.rxHeld = [])
    (hd : s.Drained) (harr : arriving s.cfg i = []) (ht : i ≠ .timeout) (hr : i ≠ .reset) :
    ∃ past, t = { s with returned := past } := by
  have hmore : (decodeFn s.cfg s.rxbuf).1 = .needMoreBytes := congrArg Prod.fst hd
  have hunchanged := receive_nil hheld hs.capacity
  cases h with
  | encoded _ => exact ⟨_, rfl⟩
  | pushed b =>
    obtain rfl : b = [] := harr
    rw [hunchanged]
    exact ⟨s.returned, rfl⟩
  | framed hw =>
    rw [arriving_frame hw] at harr
    rw [harr, hunchanged]
    exact ⟨s.returned, rfl⟩
  | paired _ => cases harr
  | decoded hv =>
    cases hd.symm.trans hv
    rw [consume_zero hs.offset]
    exact ⟨_, rfl⟩
  | observed ho =>
    rw [observeFn_of_needMoreBytes hmore] at ho
    cases ho
    exact ⟨_, rfl⟩
  | idled _ => exact absurd rfl ht
  | dropped _ _ => exact absurd rfl ht
  | cleared => exact absurd rfl hr

/-- Settles O56: what is over stays over, since nothing arrives and nothing is held or can be judged. -/
theorem anOverRunChangesOnlyByTimeoutOrReset : Obligations.AnOverRunChangesOnlyByTimeoutOrReset := by
  intro s t hinv hover hstep hothers
  obtain ⟨hleft, hheld, hd⟩ := hover
  obtain ⟨-, rfl⟩ | ⟨inp, rest, i, u, hin, hdec, hu, rfl⟩ := step_effect hstep
  · rw [receiveTurn_of_nothing_held hheld]
    exact ⟨rfl, rfl, hleft, hheld, hd⟩
  · rw [streamLeft_cons hin hdec, List.append_eq_nil_iff] at hleft
    obtain ⟨harr, hleft⟩ := hleft
    obtain ⟨htime, hreset⟩ := hothers inp rest hin
    obtain ⟨past, heq⟩ := hu.of_drained (hinv.sound.with_inputs rest) hheld hd harr
      (fun h => htime (h ▸ hdec)) (fun h => hreset (h ▸ hdec))
    rw [receiveTurn_of_nothing_held (by rw [heq]; exact hheld), heq]
    exact ⟨rfl, rfl, hleft, hheld, hd⟩

end Sys2Proof.Machine
end

section
/-!
PROOFS. Single-byte sensitivity of the three check families (30_encoding.md R85). A CRC with an odd polynomial takes different
registers and different bytes to different registers, so a difference, once there, stays.
-/

namespace Sys2Proof

section
variable {w : Nat} {poly : BitVec w}

/-- A shift by one loses nothing but the top bit. -/
theorem eq_of_shiftLeft_one_eq {a b : BitVec w} (hmsb : a.msb = b.msb) (h : a <<< 1 = b <<< 1) : a = b := by
  refine BitVec.eq_of_getLsbD_eq fun i hi => ?_
  by_cases htop : i + 1 < w
  · simpa [BitVec.getLsbD_shiftLeft, htop, hi, BitVec.getLsbD_eq_getElem] using congrArg (BitVec.getLsbD · (i + 1)) h
  · obtain rfl : i = w - 1 := by omega
    simpa only [BitVec.msb_eq_getLsbD_last] using hmsb

/-- Bit 0 after a step of the register says whether the polynomial was entered. -/
theorem getLsbD_zero_crcShift (hpoly : poly.getLsbD 0 = true) (reg : BitVec w) : (crcShift poly reg).getLsbD 0 = reg.msb := by
  unfold crcShift
  cases hm : reg.msb <;> simp [hpoly]

theorem crcShift_injective (hpoly : poly.getLsbD 0 = true) : Function.Injective (crcShift poly) := by
  intro a b h
  have hmsb : a.msb = b.msb := by
    rw [← getLsbD_zero_crcShift hpoly a, ← getLsbD_zero_crcShift hpoly b, h]
  refine eq_of_shiftLeft_one_eq hmsb ?_
  unfold crcShift at h
  rw [hmsb] at h
  split at h
  · exact (BitVec.xor_left_inj _).mp h
  · exact h

theorem crcShifts_injective (hpoly : poly.getLsbD 0 = true) (k : Nat) : Function.Injective (crcShifts poly k) := by
  induction k with
  | zero => exact fun _ _ h => h
  | succ k ih => exact fun _ _ h => crcShift_injective hpoly (ih h)

/-- Different registers stay different under the same byte. -/
theorem crcByte_register_injective (hpoly : poly.getLsbD 0 = true) (refin : Bool) (b : Byte) :
    Function.Injective fun reg => crcByte poly refin reg b :=
  fun _ _ h => (BitVec.xor_left_inj _).mp (crcShifts_injective hpoly 8 h)

theorem reverse_injective : Function.Injective (BitVec.reverse (w := w)) :=
  Function.LeftInverse.injective fun _ => BitVec.reverse_reverse_eq

/-- A byte enters the top of a register of at least eight bits whole. -/
theorem byte_at_top_injective (hw : 8 ≤ w) : Function.Injective fun b : Byte => b.setWidth w <<< (w - 8) := by
  intro a b h
  refine BitVec.eq_of_getLsbD_eq fun i hi => ?_
  have hbit := congrArg (BitVec.getLsbD · (w - 8 + i)) h
  have hlt : w - 8 + i < w := by omega
  have hiw : i < w := by omega
  simpa [BitVec.getLsbD_shiftLeft, hlt, hiw] using hbit

/-- Different bytes make the same register different. -/
theorem crcByte_byte_injective (hw : 8 ≤ w) (hpoly : poly.getLsbD 0 = true) (refin : Bool) (reg : BitVec w) :
    Function.Injective (crcByte poly refin reg) := by
  intro a b h
  have htop := byte_at_top_injective hw ((BitVec.xor_right_inj _).mp (crcShifts_injective hpoly 8 h))
  cases refin with
  | true => exact reverse_injective htop
  | false => exact htop

/-- Different registers stay different under the same bytes. -/
theorem crcBytes_injective (hpoly : poly.getLsbD 0 = true) (refin : Bool) (bs : Bytes) :
    Function.Injective fun reg => crcBytes poly refin reg bs := by
  induction bs with
  | nil => exact fun _ _ h => h
  | cons b bs ih => exact fun _ _ h => crcByte_register_injective hpoly refin b (ih h)

theorem crcBytes_append (refin : Bool) (reg : BitVec w) (x y : Bytes) :
    crcBytes poly refin reg (x ++ y) = crcBytes poly refin (crcBytes poly refin reg x) y := by
  induction x generalizing reg with
  | nil => rfl
  | cons b bs ih => exact ih _

end

/-- The result of a CRC is read off the register one to one. -/
theorem crcBytes_eq_of_crcCheck_eq {p : CrcParams} {x y : Bytes} (h : crcCheck p x = crcCheck p y) :
    crcBytes (BitVec.ofNat p.width p.poly) p.refin (BitVec.ofNat p.width p.init) x =
      crcBytes (BitVec.ofNat p.width p.poly) p.refin (BitVec.ofNat p.width p.init) y := by
  have hreg := (BitVec.xor_left_inj _).mp (BitVec.eq_of_toNat_eq h)
  split at hreg
  · exact reverse_injective hreg
  · exact hreg

theorem crcCheck_sensitive {p : CrcParams} (hw : 8 ≤ p.width) (hpoly : p.poly % 2 = 1) {x y : Bytes}
    (h : DifferInOneByte x y) : crcCheck p x ≠ crcCheck p y := by
  obtain ⟨pre, post, b, b', hne, rfl, rfl⟩ := h
  have hodd : (BitVec.ofNat p.width p.poly).getLsbD 0 = true := by
    rw [BitVec.getLsbD_ofNat, Nat.testBit_zero, hpoly]
    simp
    omega
  intro heq
  have hreg := crcBytes_eq_of_crcCheck_eq heq
  rw [crcBytes_append, crcBytes_append] at hreg
  exact hne (crcByte_byte_injective hw hodd p.refin _ (crcBytes_injective hodd p.refin post hreg))

theorem byteSum_mod_eq_of_sumCheck_eq {cw : Nat} {complement : Bool} {x y : Bytes} (h : sumCheck cw complement x = sumCheck cw complement y) :
    byteSum x % 2 ^ (8 * cw) = byteSum y % 2 ^ (8 * cw) := by
  have hx := Nat.mod_lt (byteSum x) (Nat.two_pow_pos (8 * cw))
  have hy := Nat.mod_lt (byteSum y) (Nat.two_pow_pos (8 * cw))
  unfold sumCheck at h
  generalize 2 ^ (8 * cw) = m at h hx hy ⊢
  cases complement with
  | false => exact h
  | true =>
    simp only [if_true] at h
    have hcompl (s : Nat) (hs : s < m) : (m - s) % m = if s = 0 then 0 else m - s := by
      split
      · simp [*]
      · exact Nat.mod_eq_of_lt (by omega)
    rw [hcompl _ hx, hcompl _ hy] at h
    split at h <;> split at h <;> omega

/-- The sums of two sequences that differ in one byte differ by less than 256. -/
theorem sumCheck_sensitive {cw : Nat} (hcw : 1 ≤ cw) (complement : Bool) {x y : Bytes} (h : DifferInOneByte x y) :
    sumCheck cw complement x ≠ sumCheck cw complement y := by
  obtain ⟨pre, post, b, b', hne, rfl, rfl⟩ := h
  intro heq
  have hmod := byteSum_mod_eq_of_sumCheck_eq heq
  simp only [byteSum_append, byteSum] at hmod
  have hcancel : b.toNat ≡ b'.toNat [MOD 2 ^ (8 * cw)] :=
    Nat.ModEq.add_right_cancel' _ (Nat.ModEq.add_left_cancel' _ hmod)
  have hwide : 2 ^ 8 ≤ 2 ^ (8 * cw) := Nat.pow_le_pow_right (by decide) (by omega)
  have hb := b.isLt
  have hb' := b'.isLt
  exact hne (BitVec.eq_of_toNat_eq (Nat.ModEq.eq_of_lt_of_lt hcancel (by omega) (by omega)))

theorem byteXor_append (x y : Bytes) : byteXor (x ++ y) = byteXor x ^^^ byteXor y := by
  induction x with
  | nil => simp [byteXor]
  | cons b bs ih => simp [byteXor, ih, BitVec.xor_assoc]

theorem xor8Check_sensitive {x y : Bytes} (h : DifferInOneByte x y) : xor8Check x ≠ xor8Check y := by
  obtain ⟨pre, post, b, b', hne, rfl, rfl⟩ := h
  intro heq
  have hxor := BitVec.eq_of_toNat_eq heq
  rw [byteXor_append, byteXor_append, BitVec.xor_right_inj, byteXor, byteXor, BitVec.xor_left_inj] at hxor
  exact hne hxor

/-- Settles O25, family by family. -/
theorem checkFamiliesDetectEveryByteChange : Obligations.CheckFamiliesDetectEveryByteChange := by
  intro c hcheck hcw hpoly hvendor x y h
  unfold Config.wfCheck at hcheck
  cases hk : c.check with
  | crc p =>
    simp only [hk, Bool.and_eq_true, beq_iff_eq] at hcheck
    obtain ⟨⟨⟨hwidth, -⟩, -⟩, -⟩ := hcheck
    simpa only [checkFn, hk] using crcCheck_sensitive (by omega) (hpoly p hk) h
  | sum complement => simpa only [checkFn, hk] using sumCheck_sensitive hcw complement h
  | xor8 => simpa only [checkFn, hk] using xor8Check_sensitive h
  | vendor id => exact absurd hk (hvendor id)

/-- A configuration whose check is a sum is well formed once its evaluable clauses are. -/
theorem wellFormed_of_sum {c : Config} {complement : Bool} (hc : c.wf = true) (h : c.check = .sum complement) : c.WellFormed := by
  obtain ⟨-, -, -, -, -, hcw, -⟩ := wf_clauses hc
  exact ⟨hc, checkFamiliesDetectEveryByteChange c (wf_check hc) hcw (by simp [h]) (by simp [h])⟩

/-- A configuration whose check is a CRC with an odd polynomial is well formed once its evaluable clauses are. -/
theorem wellFormed_of_crc {c : Config} {p : CrcParams} (hc : c.wf = true) (h : c.check = .crc p) (hp : p.poly % 2 = 1) :
    c.WellFormed := by
  obtain ⟨-, -, -, -, -, hcw, -⟩ := wf_clauses hc
  exact ⟨hc, checkFamiliesDetectEveryByteChange c (wf_check hc) hcw (by rw [h]; rintro _ ⟨⟩; exact hp) (by simp [h])⟩

/-- Settles O26: the checks are CRC-16/CCITT-FALSE, whose polynomial is odd, and the plain sum. -/
theorem referenceConfigurationsAreWellFormed : Obligations.ReferenceConfigurationsAreWellFormed :=
  ⟨wellFormed_of_crc (by decide) rfl rfl, wellFormed_of_crc (by decide) rfl rfl, cfgSum8_wellFormed,
    wellFormed_of_sum (by decide) rfl⟩

end Sys2Proof
end

section
/-!
PROOFS. OBSERVE, DRAIN and repeated DECODE (41_decode.md R118, 42_observe.md R141, R142).
-/

namespace Sys2Proof.Machine

/-- Settles O46: what an OBSERVE returns is what its loop observed. -/
theorem observedEventsCoverTheConsumedBytes : Obligations.ObservedEventsCoverTheConsumedBytes := by
  intro s t es h hret
  cases effect_of_exec h with
  | @observed es' buf off ho =>
    obtain rfl : es' = es := by simpa using hret
    have hobs := observes_of_observeFn ho
    exact ⟨hobs.bytes, fun hoff front back e hes => hobs.eventOffset hoff hes⟩

/-- DRAIN ends with the DECODE that needs more bytes. -/
theorem drainLoop_of_needMoreBytes {s : State} (h : (decodeFn s.cfg s.rxbuf).1 = .needMoreBytes) (hoff : s.rxoff < 2 ^ s.cfg.offw)
    (fuel : Nat) : drainLoop (fuel + 1) s = .next (s.ret (.decoded .needMoreBytes 0 [])) := by
  simp only [drainLoop, exec_decode_of_needMoreBytes h hoff, if_pos h]

/-- DRAIN goes on behind a DECODE with another verdict. -/
theorem drainLoop_of_verdict {s : State} {v : Verdict} {n : Nat} (h : decodeFn s.cfg s.rxbuf = (v, n)) (hv : v ≠ .needMoreBytes)
    (fuel : Nat) : drainLoop (fuel + 1) s = drainLoop fuel ((s.consume n).ret (.decoded v n (s.rxbuf.take n))) := by
  simp only [drainLoop, exec_decode, h, if_neg hv]

/-- The events of one returned value that was returned at stream offset `off`. -/
def resultEvents (off : Nat) : Result → List Event
  | .decoded v _ raw => (eventOf off raw v).toList
  | .observed es => es
  | _ => []

theorem eventLog_cons (c : Config) (off : Nat) (r : Result) (rs : List Result) :
    eventLog c off (r :: rs) = resultEvents off r ++ eventLog c (advanceOffset c off (resultRaw r).length) rs := by
  cases r <;> rfl

theorem eventLog_singleton (c : Config) (off : Nat) (r : Result) : eventLog c off [r] = resultEvents off r := by
  rw [eventLog_cons, eventLog, List.append_nil]

/-- DRAIN takes the same steps as the loop of OBSERVE. -/
theorem exists_drainLoop_of_observes {c : Config} {buf buf' : Bytes} {off off' : Nat} {es : List Event}
    (h : Observes c buf off es buf' off') {s : State} {fuel : Nat} (hc : c.wf = true) (hcfg : s.cfg = c) (hbuf : s.rxbuf = buf)
    (hoff : s.rxoff = off) (hlt : off < 2 ^ c.offw) (hfuel : buf.length < fuel) :
    ∃ rs, drainLoop fuel s = .next { s with rxbuf := buf', rxoff := off', returned := s.returned ++ rs } ∧
      eventLog c off rs = es := by
  induction h generalizing s fuel with
  | done off hmore =>
    subst hbuf hoff hcfg
    obtain ⟨fuel, rfl⟩ := Nat.exists_eq_succ_of_ne_zero (Nat.ne_zero_of_lt hfuel)
    exact ⟨_, drainLoop_of_needMoreBytes hmore hlt fuel, rfl⟩
  | @event buf buf' off off' n v e es hd he rest ih =>
    subst hbuf hoff hcfg
    have hv : v ≠ .needMoreBytes := by
      rintro rfl
      cases he
    have hbounds := decodeFn_consumed_bounds (buf := s.rxbuf) hc (by rw [hd]; exact hv)
    rw [hd] at hbounds
    obtain ⟨fuel, rfl⟩ := Nat.exists_eq_succ_of_ne_zero (Nat.ne_zero_of_lt hfuel)
    have hfuel' : (s.rxbuf.drop n).length < fuel := by
      rw [List.length_drop]
      omega
    obtain ⟨rs, hrs, hlog⟩ := ih (s := (s.consume n).ret (.decoded v n (s.rxbuf.take n))) rfl rfl rfl
      (advanceOffset_lt _ _ _) hfuel'
    refine ⟨.decoded v n (s.rxbuf.take n) :: rs, ?_, ?_⟩
    · rw [drainLoop_of_verdict hd hv, hrs]
      simp [State.consume, State.ret]
    · rw [eventLog_cons, resultEvents, he, resultRaw, List.length_take_of_le hbounds.2]
      exact congrArg (e :: ·) hlog

/-- Settles O45: both take the steps of the same loop. -/
theorem observeIsDrain : Obligations.ObserveIsDrain := by
  intro s hc hoff
  obtain ⟨es, buf, off, hobs⟩ := exists_observes hc s.rxbuf s.rxoff
  obtain ⟨rs, hdrain, hlog⟩ := exists_drainLoop_of_observes hobs hc rfl rfl rfl hoff (Nat.lt_succ_self _)
  exact ⟨_, _, rs, es, hdrain, rfl, hobs.drained, exec_observe_of_answer (observeFn_of_observes hc hobs), rfl, rfl, hlog⟩

/-- The bytes still to be judged: those of RXBUF and the held ones behind them. -/
def State.pending (s : State) : Bytes := s.rxbuf ++ s.rxHeld.flatten

theorem pending_receiveTurn (s : State) : s.receiveTurn.pending = s.pending := receiveTurn_bytes s

/-- A DECODE with a verdict leaves fewer bytes to be judged. -/
theorem exists_decode_pending_lt {s : State} (hc : s.cfg.wf = true) (h : (decodeFn s.cfg s.rxbuf).1 ≠ .needMoreBytes) :
    ∃ u, exec .decode s = .next u ∧ u.cfg = s.cfg ∧ u.pending.length < s.pending.length := by
  obtain ⟨hpos, hle⟩ := decodeFn_consumed_bounds hc h
  refine ⟨_, exec_decode s, rfl, ?_⟩
  simp only [State.pending, ret_rxbuf, consume_rxbuf, ret_rxHeld, consume_rxHeld, List.length_append, List.length_drop]
  omega

/-- As many DECODEs as there are bytes to be judged, or fewer, lead to NeedMoreBytes. -/
theorem exists_decodes_drained {s : State} (hc : s.cfg.wf = true) :
    ∃ k t, k ≤ s.pending.length ∧ runInstrs (List.replicate k .decode) s = .next t ∧ t.Drained := by
  induction hn : s.pending.length using Nat.strong_induction_on generalizing s with
  | _ n ih =>
    subst hn
    by_cases hmore : (decodeFn s.cfg s.rxbuf).1 = .needMoreBytes
    · exact ⟨0, s, Nat.zero_le _, rfl, decodeFn_needMoreBytes hmore⟩
    · obtain ⟨u, hu, hcfg, hfewer⟩ := exists_decode_pending_lt hc hmore
      rw [← pending_receiveTurn] at hfewer
      obtain ⟨k, t, hk, hrun, ht⟩ := ih _ hfewer (s := u.receiveTurn) (hcfg ▸ hc) rfl
      exact ⟨k + 1, t, by omega, runInstrs_cons_next_iff.mpr ⟨_, perform_next_iff.mpr ⟨u, hu, rfl⟩, hrun⟩, ht⟩

/-- Settles O44: the bytes to be judged are those of RXBUF and the held ones. -/
theorem decodingReachesNeedMoreBytes : Obligations.DecodingReachesNeedMoreBytes := by
  intro s hc
  obtain ⟨k, t, hk, hrun, ht⟩ := exists_decodes_drained hc
  exact ⟨k, t, by rwa [State.pending, List.length_append] at hk, hrun, ht⟩

end Sys2Proof.Machine
end

section
/-!
PROOFS. Fragmentation independence (20_memory.md R44). What a DECODE judged early is what an OBSERVE of the whole stream would have
found there, but for how it cuts the bytes that belong to no frame.
-/

namespace Sys2Proof

@[simp] theorem eventFrames_nil : eventFrames [] = [] := rfl
@[simp] theorem eventFrames_append (es es' : List Event) : eventFrames (es ++ es') = eventFrames es ++ eventFrames es' :=
  List.filterMap_append

/-- The frame of a verdict, with the offset it was taken at. -/
def verdictFrames (off : Nat) : Verdict → List (Nat × Frame)
  | .frame f => [(off, f)]
  | _ => []

/-- The frames of a verdict's event are those of the verdict, whatever its bytes. -/
theorem eventFrames_eventOf (off : Nat) (raw : Bytes) (v : Verdict) : eventFrames (eventOf off raw v).toList = verdictFrames off v := by
  cases v <;> rfl

theorem eventFrames_cons_of_eventOf {off : Nat} {raw : Bytes} {v : Verdict} {e : Event} (he : eventOf off raw v = some e)
    (es : List Event) : eventFrames (e :: es) = verdictFrames off v ++ eventFrames es := by
  rw [← eventFrames_eventOf off raw v, he, Option.toList_some, ← eventFrames_append, List.singleton_append]

/-- From a later start `next_marker` finds the same position, as long as the start has not passed it. -/
theorem nextMarker_drop {c : Config} {buf : Bytes} {start n : Nat} (hstart : start ≤ n) (hn : n ≤ nextMarker c buf start) :
    nextMarker c (buf.drop n) 0 = nextMarker c buf start - n := by
  have hle := nextMarker_le_length c buf start
  have hle' := nextMarker_le_length c (buf.drop n) 0
  rw [List.length_drop] at hle'
  apply le_antisymm
  · obtain hlt | hge := Nat.lt_or_ge (nextMarker c buf start) buf.length
    · refine nextMarker_le_of_agrees (Nat.zero_le _) ?_
      rw [List.drop_drop, Nat.add_sub_cancel' hn]
      exact agrees_drop_nextMarker hlt
    · omega
  · obtain hlt | hge := Nat.lt_or_ge (nextMarker c (buf.drop n) 0) (buf.drop n).length
    · have hplaus := agrees_drop_nextMarker hlt
      rw [List.drop_drop] at hplaus
      have := nextMarker_le_of_agrees (start := start) (by omega) hplaus
      omega
    · rw [List.length_drop] at hge
      omega

/-- A rejection stays one with more bytes, its skip counted from the same start; the skip may reach further. -/
theorem exists_start_of_decodeFn_invalid {c : Config} {buf : Bytes} {r : InvalidReason} {n : Nat} (hc : c.wf = true)
    (h : decodeFn c buf = (.invalid r, n)) (t : Bytes) :
    ∃ start, start ≤ n ∧ n ≤ nextMarker c (buf ++ t) start ∧
      decodeFn c (buf ++ t) = (.invalid r, nextMarker c (buf ++ t) start) := by
  by_cases hr : r = .noMarker
  · subst hr
    obtain hd | ⟨hp, hd⟩ | ⟨-, -, r, hres, hd⟩ | ⟨f, n', hd⟩ := decodeFn_outcomes c buf <;> cases hd.symm.trans h
    · have hle := nextMarker_le_nextMarker_append c (Nat.zero_le buf.length) t
      have hne : buf ++ t ≠ [] := by
        intro hnil
        rw [(List.append_eq_nil_iff.mp hnil).1] at hp
        cases hp
      exact ⟨0, Nat.zero_le _, hle, decodeFn_of_hunt hne (by omega)⟩
    · obtain hres | hres | hres := hres <;> cases hres
  · obtain ⟨hb, rfl, hd⟩ := decodeFn_invalid_append hc hr h t
    have hpos : 1 ≤ buf.length := List.length_pos_iff.mpr hb
    exact ⟨1, (nextMarker_one_bounds c hb).1, nextMarker_le_nextMarker_append c hpos t, hd⟩

/-- Where nothing can be decoded OBSERVE finds nothing. -/
theorem Observes.of_needMoreBytes {c : Config} {buf buf' : Bytes} {off off' : Nat} {es : List Event}
    (h : Observes c buf off es buf' off') (hmore : (decodeFn c buf).1 = .needMoreBytes) : es = [] ∧ buf' = buf ∧ off' = off := by
  cases h with
  | done => exact ⟨rfl, rfl, rfl⟩
  | event hd he =>
    rw [hd] at hmore
    subst hmore
    cases he

/-- Where a verdict is ready OBSERVE takes it and goes on behind it. -/
theorem Observes.of_verdict {c : Config} {buf buf' : Bytes} {off off' n : Nat} {v : Verdict} {es : List Event}
    (h : Observes c buf off es buf' off') (hd : decodeFn c buf = (v, n)) (hv : v ≠ .needMoreBytes) :
    ∃ es', Observes c (buf.drop n) (advanceOffset c off n) es' buf' off' ∧
      eventFrames es = verdictFrames off v ++ eventFrames es' := by
  cases h with
  | done _ hmore =>
    rw [hd] at hmore
    exact absurd hmore hv
  | event hd' he rest =>
    cases hd.symm.trans hd'
    exact ⟨_, rest, eventFrames_cons_of_eventOf he _⟩

/-- What one DECODE finds in a buffer is what OBSERVE finds there with more bytes behind it: the frame if it is one, and behind the
consumed bytes the same frames and the same end. -/
theorem Observes.after_decode {c : Config} {buf t buf' : Bytes} {off off' n : Nat} {v : Verdict} {es : List Event}
    (hc : c.wf = true) (hoff : off < 2 ^ c.offw) (hd : decodeFn c buf = (v, n)) (h : Observes c (buf ++ t) off es buf' off') :
    ∃ es', Observes c (buf.drop n ++ t) (advanceOffset c off n) es' buf' off' ∧
      eventFrames es = verdictFrames off v ++ eventFrames es' := by
  rw [← List.drop_append_of_le_length (decodeFn_count_le hd)]
  cases v with
  | frame f => exact h.of_verdict (decodeFn_frame_append hc hd t) nofun
  | needMoreBytes =>
    cases hd.symm.trans (decodeFn_needMoreBytes (by rw [hd]))
    rw [List.drop_zero, advanceOffset_zero hoff]
    exact ⟨es, h, rfl⟩
  | invalid r =>
    obtain ⟨start, hstart, hn, hd'⟩ := exists_start_of_decodeFn_invalid hc hd t
    obtain ⟨es', hrest, hframes⟩ := h.of_verdict hd' nofun
    have hskip := nextMarker_drop hstart hn
    obtain heq | hlt := hn.eq_or_lt
    · rw [← heq] at hrest
      exact ⟨es', hrest, hframes⟩
    · have hle := nextMarker_le_length c (buf ++ t) start
      have hne : (buf ++ t).drop n ≠ [] := List.ne_nil_of_length_pos (by rw [List.length_drop]; omega)
      have hhunt := decodeFn_of_hunt hne (by rw [hskip]; omega)
      refine ⟨_, .event hhunt rfl ?_, hframes⟩
      rwa [hskip, List.drop_drop, advanceOffset_advanceOffset, Nat.add_sub_cancel' hn]

/-- What one OBSERVE finds in a buffer is what OBSERVE finds there with more bytes behind it. -/
theorem Observes.after_observe {c : Config} {buf t mid buf' : Bytes} {off o off' : Nat} {es es₁ : List Event}
    (hc : c.wf = true) (hoff : off < 2 ^ c.offw) (h₁ : Observes c buf off es₁ mid o)
    (h : Observes c (buf ++ t) off es buf' off') :
    ∃ es', Observes c (mid ++ t) o es' buf' off' ∧ eventFrames es = eventFrames es₁ ++ eventFrames es' := by
  induction h₁ generalizing es with
  | done => exact ⟨es, h, rfl⟩
  | event hd he _ ih =>
    obtain ⟨es', hrest, hframes⟩ := h.after_decode hc hoff hd
    obtain ⟨es'', hrest', hframes'⟩ := ih (advanceOffset_lt _ _ _) hrest
    exact ⟨es'', hrest', by rw [hframes, hframes', eventFrames_cons_of_eventOf he, List.append_assoc]⟩

end Sys2Proof

namespace Sys2Proof.Machine

/-- From `s` to `t` the results `rs` were returned and the bytes `b` arrived: whatever follows, an OBSERVE of all bytes from `s` on
finds the frames of `rs`, then what an OBSERVE from `t` on finds, and ends as that one does. -/
def Explains (s t : State) (rs : List Result) (b : Bytes) : Prop :=
  ∀ (z : Bytes) (es : List Event) (buf : Bytes) (off : Nat), Observes s.cfg (s.pending ++ b ++ z) s.rxoff es buf off →
    ∃ es', Observes s.cfg (t.pending ++ z) t.rxoff es' buf off ∧
      eventFrames es = eventFrames (eventLog s.cfg s.rxoff rs) ++ eventFrames es'

/-- Results without an event explain nothing but the same bytes at the same offset. -/
theorem explains_of_pending {s t : State} {rs : List Result} {b : Bytes} (hpending : t.pending = s.pending ++ b)
    (hoff : t.rxoff = s.rxoff) (hlog : eventLog s.cfg s.rxoff rs = []) : Explains s t rs b := by
  intro z es buf off h
  rw [hpending, hoff, hlog]
  exact ⟨es, h, rfl⟩

theorem Explains.receiveTurn {s t : State} {rs : List Result} {b : Bytes} (h : Explains s t rs b) :
    Explains s t.receiveTurn rs b := by
  unfold Explains
  rw [pending_receiveTurn]
  exact h

/-- The log of two lists of results is that of the first and, from the offset it leads to, that of the second. -/
theorem eventLog_append {c : Config} {off : Nat} (hoff : off < 2 ^ c.offw) (rs rs' : List Result) :
    eventLog c off (rs ++ rs') = eventLog c off rs ++ eventLog c (advanceOffset c off (rawLog rs).length) rs' := by
  induction rs generalizing off with
  | nil => rw [rawLog_nil, List.length_nil, advanceOffset_zero hoff]; rfl
  | cons r rs ih =>
    have hraw : rawLog (r :: rs) = resultRaw r ++ rawLog rs := rfl
    rw [List.cons_append, eventLog_cons, eventLog_cons, ih (advanceOffset_lt _ _ _), advanceOffset_advanceOffset,
      ← List.length_append, ← hraw, List.append_assoc]

theorem Explains.trans {s t u : State} {rs rs' : List Result} {b b' : Bytes} (hoff : s.rxoff < 2 ^ s.cfg.offw)
    (ha : Accounts s t rs b) (h : Explains s t rs b) (h' : Explains t u rs' b') : Explains s u (rs ++ rs') (b ++ b') := by
  intro z es buf off hobs
  have hstream : s.pending ++ (b ++ b') ++ z = s.pending ++ b ++ (b' ++ z) := by simp only [List.append_assoc]
  rw [hstream] at hobs
  obtain ⟨es', hobs', hframes⟩ := h _ _ _ _ hobs
  rw [← List.append_assoc, ← ha.cfg] at hobs'
  obtain ⟨es'', hobs'', hframes'⟩ := h' _ _ _ _ hobs'
  rw [ha.cfg] at hobs'' hframes'
  refine ⟨es'', hobs'', ?_⟩
  rw [hframes, hframes', eventLog_append hoff, ← ha.offset, eventFrames_append, List.append_assoc]

theorem explains_receive (s : State) (b : Bytes) : Explains s (s.receive b) [] b :=
  explains_of_pending (receive_bytes s b) (receive_rxoff s b) rfl

theorem explains_decode {s : State} {v : Verdict} {n : Nat} (hc : s.cfg.wf = true) (hoff : s.rxoff < 2 ^ s.cfg.offw)
    (hd : decodeFn s.cfg s.rxbuf = (v, n)) :
    Explains s ((s.consume n).ret (.decoded v n (s.rxbuf.take n))) [.decoded v n (s.rxbuf.take n)] [] := by
  intro z es buf off hobs
  rw [List.append_nil, State.pending, List.append_assoc] at hobs
  obtain ⟨es', hrest, hframes⟩ := hobs.after_decode hc hoff hd
  rw [← List.append_assoc] at hrest
  refine ⟨es', hrest, ?_⟩
  rw [hframes, eventLog_singleton, resultEvents, eventFrames_eventOf]

theorem explains_observe {s : State} {es₁ : List Event} {mid : Bytes} {o : Nat} (hc : s.cfg.wf = true)
    (hoff : s.rxoff < 2 ^ s.cfg.offw) (h₁ : Observes s.cfg s.rxbuf s.rxoff es₁ mid o) :
    Explains s (State.ret { s with rxbuf := mid, rxoff := o } (.observed es₁)) [.observed es₁] [] := by
  intro z es buf off hobs
  rw [List.append_nil, State.pending, List.append_assoc] at hobs
  obtain ⟨es', hrest, hframes⟩ := Observes.after_observe hc hoff h₁ hobs
  rw [← List.append_assoc] at hrest
  exact ⟨es', hrest, by rw [hframes, eventLog_singleton, resultEvents]⟩

/-- Every operation but TIMEOUT and RESET explains what it returns. -/
theorem Effect.explains {i : Instr} {s t : State} (h : Effect s i t) (hc : s.cfg.wf = true) (hoff : s.rxoff < 2 ^ s.cfg.offw)
    (htime : i ≠ .timeout) (hreset : i ≠ .reset) :
    ∃ rs, Accounts s t rs (arriving s.cfg i) ∧ Explains s t rs (arriving s.cfg i) := by
  obtain ⟨rs, ha⟩ := h.accounts hreset hoff
  refine ⟨rs, ha, ?_⟩
  have hreturned := ha.returned
  cases h with
  | encoded _ =>
    obtain rfl : [_] = rs := List.append_cancel_left hreturned
    exact explains_of_pending (List.append_nil _).symm rfl rfl
  | pushed b =>
    obtain rfl : rs = [] := by simpa using hreturned
    exact explains_receive s b
  | framed hw =>
    obtain rfl : rs = [] := by simpa using hreturned
    rw [arriving_frame hw]
    exact explains_receive s _
  | paired _ =>
    obtain rfl : rs = [] := by simpa using hreturned
    exact explains_receive s _
  | decoded hd =>
    obtain rfl : [_] = rs := List.append_cancel_left hreturned
    exact explains_decode hc hoff hd
  | observed ho =>
    obtain rfl : [_] = rs := List.append_cancel_left hreturned
    exact explains_observe hc hoff (observes_of_observeFn ho)
  | idled _ => exact absurd rfl htime
  | dropped _ _ => exact absurd rfl htime
  | cleared => exact absurd rfl hreset

/-- A run without TIMEOUT and RESET explains what it returns. -/
theorem runInstrs_explains {ops : List Instr} {s t : State} (hc : s.cfg.wf = true) (hoff : s.rxoff < 2 ^ s.cfg.offw)
    (hops : ∀ i ∈ ops, i ≠ .timeout ∧ i ≠ .reset) (h : runInstrs ops s = .next t) :
    ∃ rs, Accounts s t rs (ops.map (arriving s.cfg)).flatten ∧ Explains s t rs (ops.map (arriving s.cfg)).flatten := by
  induction ops generalizing s with
  | nil =>
    cases h
    exact ⟨[], Accounts.refl hoff, explains_of_pending (List.append_nil _).symm rfl rfl⟩
  | cons i is ih =>
    obtain ⟨⟨htime, hreset⟩, his⟩ := List.forall_mem_cons.mp hops
    obtain ⟨u, hu, hrun⟩ := runInstrs_cons_next_iff.mp h
    obtain ⟨v, hv, rfl⟩ := perform_effect hu
    obtain ⟨rs, ha, he⟩ := hv.explains hc hoff htime hreset
    have first := ha.receiveTurn
    have hoff' : v.receiveTurn.rxoff < 2 ^ v.receiveTurn.cfg.offw := by
      rw [first.offset, first.cfg]
      exact advanceOffset_lt _ _ _
    obtain ⟨rs', ha', he'⟩ := ih (first.cfg ▸ hc) hoff' his hrun
    rw [first.cfg] at ha' he'
    exact ⟨rs ++ rs', first.trans ha', he.receiveTurn.trans hoff first he'⟩

/-- A run that is over has returned the frames an OBSERVE of the whole stream finds, and left the buffer and offset it leaves. -/
theorem RunOver.observes {stream buf : Bytes} {ops : List Instr} {s t : State} {es : List Event} {off : Nat}
    (h : RunOver stream ops s t) (hc : s.cfg.wf = true) (hoff : s.rxoff < 2 ^ s.cfg.offw)
    (hops : ∀ i ∈ ops, i ≠ .timeout ∧ i ≠ .reset) (hobs : Observes s.cfg (s.pending ++ stream) s.rxoff es buf off) :
    ∃ rs, t.returned = s.returned ++ rs ∧ eventFrames (eventLog s.cfg s.rxoff rs) = eventFrames es ∧ t.rxbuf = buf ∧
      t.rxoff = off := by
  obtain ⟨hstream, hrun, hheld, hd⟩ := h
  obtain ⟨rs, ha, he⟩ := runInstrs_explains hc hoff hops hrun
  rw [hstream] at he
  obtain ⟨es', hobs', hframes⟩ := he [] es buf off (by rwa [List.append_nil])
  have hpending : t.pending ++ [] = t.rxbuf := by simp [State.pending, hheld]
  rw [hpending] at hobs'
  rw [State.Drained, ha.cfg] at hd
  obtain ⟨rfl, rfl, rfl⟩ := hobs'.of_needMoreBytes (congrArg Prod.fst hd)
  exact ⟨rs, ha.returned, by rw [hframes, eventFrames_nil, List.append_nil], rfl, rfl⟩

/-- Settles O55: both runs come to what an OBSERVE of the whole stream comes to. -/
theorem framesDoNotDependOnFragmentation : Obligations.FramesDoNotDependOnFragmentation := by
  intro s t1 t2 ops1 ops2 stream hc hoff hops h1 h2
  obtain ⟨hops1, hops2⟩ := List.forall_mem_append.mp hops
  obtain ⟨es, buf, off, hobs⟩ := exists_observes hc (s.pending ++ stream) s.rxoff
  obtain ⟨rs1, hret1, hframes1, hbuf1, hoff1⟩ := h1.observes hc hoff hops1 hobs
  obtain ⟨rs2, hret2, hframes2, hbuf2, hoff2⟩ := h2.observes hc hoff hops2 hobs
  exact ⟨rs1, rs2, hret1, hret2, hframes1.trans hframes2.symm, hbuf1.trans hbuf2.symm, hoff1.trans hoff2.symm⟩

end Sys2Proof.Machine
end
